-- ==== Sys2Proof/Word.lean ====
section
/-! DEFINITION. The words of the machine (spec/00_scope.md R5, R6): bytes, 16-bit words, register numbers. -/

namespace Sys2Proof

/-- An 8-bit value: a general register, a memory byte, the immediate KK, a timer (R5 `XLEN`). -/
abbrev Byte := BitVec 8

/-- A 16-bit value: an instruction word, `I`, `pc`, a stack slot (R5 `ILEN`, `ALEN`). -/
abbrev Word := BitVec 16

/-- The number of a general register, V0 to VF (spec/10_state.md R11). -/
abbrev Reg := Fin 16

end Sys2Proof
end

