-- ==== Sys2Proof/Syntax.lean ====
section
/-! DEFINITION. The instructions: one constructor per row of spec/opcode_table.json, in the order of the
opcode map (spec/30_encoding.md R65), with the operands of R61 to R63. -/

namespace Sys2Proof

/-- The 34 operations. `x` and `y` are register numbers, `kk` the 8-bit immediate, `nnn` the 12-bit
address, `n` a count of sprite rows. The two shifts keep the `y` field of their word although the operation
ignores it (R68), so that an instruction says its word completely (log entry 16). -/
inductive Instr where
  /-- 00E0 clear-screen (R140). -/
  | clearScreen
  /-- 00EE return (R80). -/
  | ret
  /-- 1NNN jump (R81). -/
  | jump (nnn : BitVec 12)
  /-- 2NNN call (R82). -/
  | call (nnn : BitVec 12)
  /-- 3XKK skip-eq-imm (R83). -/
  | skipEqImm (x : Reg) (kk : Byte)
  /-- 4XKK skip-neq-imm (R84). -/
  | skipNeqImm (x : Reg) (kk : Byte)
  /-- 5XY0 skip-eq-reg (R85). -/
  | skipEqReg (x y : Reg)
  /-- 6XKK load-imm (R102). -/
  | loadImm (x : Reg) (kk : Byte)
  /-- 7XKK add-imm (R103). -/
  | addImm (x : Reg) (kk : Byte)
  /-- 8XY0 assign (R104). -/
  | assign (x y : Reg)
  /-- 8XY1 or (R105). -/
  | orReg (x y : Reg)
  /-- 8XY2 and (R106). -/
  | andReg (x y : Reg)
  /-- 8XY3 xor (R107). -/
  | xorReg (x y : Reg)
  /-- 8XY4 add-reg (R108). -/
  | addReg (x y : Reg)
  /-- 8XY5 sub-reg (R109). -/
  | subReg (x y : Reg)
  /-- 8XY6 shift-right (R110); `y` is ignored (R68). -/
  | shiftRight (x y : Reg)
  /-- 8XY7 subn-reg (R111). -/
  | subnReg (x y : Reg)
  /-- 8XYE shift-left (R112); `y` is ignored (R68). -/
  | shiftLeft (x y : Reg)
  /-- 9XY0 skip-neq-reg (R86). -/
  | skipNeqReg (x y : Reg)
  /-- ANNN load-index (R120). -/
  | loadIndex (nnn : BitVec 12)
  /-- BNNN jump-offset (R87). -/
  | jumpOffset (nnn : BitVec 12)
  /-- CXKK random-and (R113). -/
  | randomAnd (x : Reg) (kk : Byte)
  /-- DXYN draw (R141). -/
  | draw (x y : Reg) (n : Nat)
  /-- EX9E skip-key-pressed (R150). -/
  | skipKeyPressed (x : Reg)
  /-- EXA1 skip-key-not-pressed (R151). -/
  | skipKeyNotPressed (x : Reg)
  /-- FX07 get-delay (R153). -/
  | getDelay (x : Reg)
  /-- FX0A wait-for-key (R152). -/
  | waitForKey (x : Reg)
  /-- FX15 set-delay (R154). -/
  | setDelay (x : Reg)
  /-- FX18 set-sound (R155). -/
  | setSound (x : Reg)
  /-- FX1E add-to-index (R121). -/
  | addToIndex (x : Reg)
  /-- FX29 font-char-address (R122). -/
  | fontCharAddress (x : Reg)
  /-- FX33 store-bcd (R123). -/
  | storeBcd (x : Reg)
  /-- FX55 register-dump (R124). -/
  | registerDump (x : Reg)
  /-- FX65 register-load (R125). -/
  | registerLoad (x : Reg)
  deriving DecidableEq, Repr

end Sys2Proof
end

