-- ==== Sys2Proof/WellFormed.lean ====
section
/-! DEFINITION. Well-formedness: what the operand types do not already say. Register numbers, immediates
and addresses have exactly the width of their field (spec/30_encoding.md R61); the one operand whose type
is wider than its field is draw's count of rows. -/

namespace Sys2Proof

/-- An instruction is well formed when every operand fits its field: draw's `n` is "an unsigned count
0..15" (R63). -/
def Instr.wf : Instr → Bool
  | .draw _ _ n => decide (n ≤ 15)
  | .clearScreen | .ret | .jump _ | .call _ | .skipEqImm _ _ | .skipNeqImm _ _ | .skipEqReg _ _
  | .loadImm _ _ | .addImm _ _ | .assign _ _ | .orReg _ _ | .andReg _ _ | .xorReg _ _ | .addReg _ _
  | .subReg _ _ | .shiftRight _ _ | .subnReg _ _ | .shiftLeft _ _ | .skipNeqReg _ _ | .loadIndex _
  | .jumpOffset _ | .randomAnd _ _ | .skipKeyPressed _ | .skipKeyNotPressed _ | .getDelay _
  | .waitForKey _ | .setDelay _ | .setSound _ | .addToIndex _ | .fontCharAddress _ | .storeBcd _
  | .registerDump _ | .registerLoad _ => true

end Sys2Proof
end

