-- ==== Sys2Proof/Decode.lean ====
section
/-! DEFINITION. Decoding and encoding (spec/30_encoding.md R60 to R68, R71). The bit patterns are those of
R65, which the spec itself supplies from general knowledge (log entry 1). -/

namespace Sys2Proof

/-! ## Fields of a word (R61) -/

/-- The op-class nibble, bits 15:12. -/
def fieldC (w : Word) : BitVec 4 := w.extractLsb' 12 4
/-- The nibble `x`, bits 11:8. -/
def fieldX (w : Word) : BitVec 4 := w.extractLsb' 8 4
/-- The nibble `y`, bits 7:4. -/
def fieldY (w : Word) : BitVec 4 := w.extractLsb' 4 4
/-- The nibble `n`, bits 3:0. -/
def fieldN (w : Word) : BitVec 4 := w.extractLsb' 0 4
/-- The immediate `kk`, bits 7:0. -/
def fieldKK (w : Word) : Byte := w.extractLsb' 0 8
/-- The address `nnn`, bits 11:0. -/
def fieldNNN (w : Word) : BitVec 12 := w.extractLsb' 0 12

/-- The register a 4-bit field names (R61). -/
def regOf (f : BitVec 4) : Reg := f.toFin

/-! ## The decoder -/

/-- Classes 0: the two exact words (R65, R67). -/
def decodeClass0 (w : Word) : Option Instr :=
  if w = 0x00E0#16 then some .clearScreen
  else if w = 0x00EE#16 then some .ret
  else none

/-- Class 8: the nibble `n` selects the operation (R65). -/
def decodeClass8 (x y : Reg) (n : Nat) : Option Instr :=
  match n with
  | 0x0 => some (.assign x y)
  | 0x1 => some (.orReg x y)
  | 0x2 => some (.andReg x y)
  | 0x3 => some (.xorReg x y)
  | 0x4 => some (.addReg x y)
  | 0x5 => some (.subReg x y)
  | 0x6 => some (.shiftRight x y)
  | 0x7 => some (.subnReg x y)
  | 0xE => some (.shiftLeft x y)
  | _ => none

/-- Class E: the low byte selects the operation (R65). -/
def decodeClassE (x : Reg) (kk : Byte) : Option Instr :=
  if kk = 0x9E#8 then some (.skipKeyPressed x)
  else if kk = 0xA1#8 then some (.skipKeyNotPressed x)
  else none

/-- Class F: the low byte selects the operation (R65). -/
def decodeClassF (x : Reg) (kk : Byte) : Option Instr :=
  if kk = 0x07#8 then some (.getDelay x)
  else if kk = 0x0A#8 then some (.waitForKey x)
  else if kk = 0x15#8 then some (.setDelay x)
  else if kk = 0x18#8 then some (.setSound x)
  else if kk = 0x1E#8 then some (.addToIndex x)
  else if kk = 0x29#8 then some (.fontCharAddress x)
  else if kk = 0x33#8 then some (.storeBcd x)
  else if kk = 0x55#8 then some (.registerDump x)
  else if kk = 0x65#8 then some (.registerLoad x)
  else none

/-- `decode(word)` (R65, R71): the operation with its fields, or none for an illegal word (R66). The class
nibble selects, and in classes 0, 5, 8, 9, E and F a selector in the low bits, matched exactly. -/
def decode (w : Word) : Option Instr :=
  let x := regOf (fieldX w)
  let y := regOf (fieldY w)
  let n := (fieldN w).toNat
  match (fieldC w).toNat with
  | 0x0 => decodeClass0 w
  | 0x1 => some (.jump (fieldNNN w))
  | 0x2 => some (.call (fieldNNN w))
  | 0x3 => some (.skipEqImm x (fieldKK w))
  | 0x4 => some (.skipNeqImm x (fieldKK w))
  | 0x5 => if n = 0 then some (.skipEqReg x y) else none
  | 0x6 => some (.loadImm x (fieldKK w))
  | 0x7 => some (.addImm x (fieldKK w))
  | 0x8 => decodeClass8 x y n
  | 0x9 => if n = 0 then some (.skipNeqReg x y) else none
  | 0xA => some (.loadIndex (fieldNNN w))
  | 0xB => some (.jumpOffset (fieldNNN w))
  | 0xC => some (.randomAnd x (fieldKK w))
  | 0xD => some (.draw x y n)
  | 0xE => decodeClassE x (fieldKK w)
  | 0xF => decodeClassF x (fieldKK w)
  | _ => none

/-- Why the decoder rejects two bytes. -/
inductive Rejection where
  /-- The word matches no row of the opcode map (R66). -/
  | unknownOpcode (w : Word)
  deriving DecidableEq, Repr

/-- The big-endian word of two bytes, the byte at the lower address in bits 15:8 (spec/20_memory.md R45). -/
def wordOfBytes (hi lo : Byte) : Word := hi ++ lo

/-- The byte of a word that lies at the lower address (R45). -/
def highByte (w : Word) : Byte := w.extractLsb' 8 8
/-- The byte of a word that lies at the higher address (R45). -/
def lowByte (w : Word) : Byte := w.extractLsb' 0 8

/-- The decoder on the two bytes of an instruction, which is all an instruction ever has (R60). -/
def decodeBytes (hi lo : Byte) : Except Rejection Instr :=
  match decode (wordOfBytes hi lo) with
  | some i => .ok i
  | none => .error (.unknownOpcode (wordOfBytes hi lo))

/-- The host's question to the decoder: the instruction in a word numbered as spec/opcode_table.json
numbers it. Every row is one 16-bit word, laid out big-endian; more than 16 bits are no instruction. -/
def decodeTableWord (nbits w : Nat) : Option Instr :=
  if nbits ≤ 16 then
    let word := BitVec.ofNat 16 (w % 2 ^ nbits)
    match decodeBytes (highByte word) (lowByte word) with
    | .ok i => some i
    | .error _ => none
  else none

/-! ## The encoder -/

/-- Format NNN (R62). -/
def wordNNN (c : BitVec 4) (nnn : BitVec 12) : Word := c ++ nnn
/-- Format XKK (R62); also format X, whose low byte is a fixed selector. -/
def wordXKK (c : BitVec 4) (x : Reg) (kk : Byte) : Word := c ++ ((BitVec.ofFin x : BitVec 4) ++ kk : BitVec 12)
/-- Format XYN (R62); also format XY, whose low nibble is a fixed selector. -/
def wordXYN (c : BitVec 4) (x y : Reg) (n : BitVec 4) : Word :=
  c ++ ((BitVec.ofFin x : BitVec 4) ++ ((BitVec.ofFin y : BitVec 4) ++ n : BitVec 8) : BitVec 12)

/-- The word of an instruction, from the same rows of R65. -/
def encode : Instr → Word
  | .clearScreen => 0x00E0#16
  | .ret => 0x00EE#16
  | .jump nnn => wordNNN 0x1 nnn
  | .call nnn => wordNNN 0x2 nnn
  | .skipEqImm x kk => wordXKK 0x3 x kk
  | .skipNeqImm x kk => wordXKK 0x4 x kk
  | .skipEqReg x y => wordXYN 0x5 x y 0x0
  | .loadImm x kk => wordXKK 0x6 x kk
  | .addImm x kk => wordXKK 0x7 x kk
  | .assign x y => wordXYN 0x8 x y 0x0
  | .orReg x y => wordXYN 0x8 x y 0x1
  | .andReg x y => wordXYN 0x8 x y 0x2
  | .xorReg x y => wordXYN 0x8 x y 0x3
  | .addReg x y => wordXYN 0x8 x y 0x4
  | .subReg x y => wordXYN 0x8 x y 0x5
  | .shiftRight x y => wordXYN 0x8 x y 0x6
  | .subnReg x y => wordXYN 0x8 x y 0x7
  | .shiftLeft x y => wordXYN 0x8 x y 0xE
  | .skipNeqReg x y => wordXYN 0x9 x y 0x0
  | .loadIndex nnn => wordNNN 0xA nnn
  | .jumpOffset nnn => wordNNN 0xB nnn
  | .randomAnd x kk => wordXKK 0xC x kk
  | .draw x y n => wordXYN 0xD x y (BitVec.ofNat 4 n)
  | .skipKeyPressed x => wordXKK 0xE x 0x9E
  | .skipKeyNotPressed x => wordXKK 0xE x 0xA1
  | .getDelay x => wordXKK 0xF x 0x07
  | .waitForKey x => wordXKK 0xF x 0x0A
  | .setDelay x => wordXKK 0xF x 0x15
  | .setSound x => wordXKK 0xF x 0x18
  | .addToIndex x => wordXKK 0xF x 0x1E
  | .fontCharAddress x => wordXKK 0xF x 0x29
  | .storeBcd x => wordXKK 0xF x 0x33
  | .registerDump x => wordXKK 0xF x 0x55
  | .registerLoad x => wordXKK 0xF x 0x65

/-! ## The opcode map as mask and match (R65), a second transcription the decoder is held against -/

/-- A row of the opcode map: a word belongs to it when `word & mask = pattern`. -/
structure Row where
  mnemonic : String
  mask : Word
  pattern : Word
  deriving DecidableEq, Repr

/-- The row of R65 an operation stands in. -/
def Instr.row : Instr → Row
  | .clearScreen => ⟨"clear-screen", 0xFFFF, 0x00E0⟩
  | .ret => ⟨"return", 0xFFFF, 0x00EE⟩
  | .jump _ => ⟨"jump", 0xF000, 0x1000⟩
  | .call _ => ⟨"call", 0xF000, 0x2000⟩
  | .skipEqImm _ _ => ⟨"skip-eq-imm", 0xF000, 0x3000⟩
  | .skipNeqImm _ _ => ⟨"skip-neq-imm", 0xF000, 0x4000⟩
  | .skipEqReg _ _ => ⟨"skip-eq-reg", 0xF00F, 0x5000⟩
  | .loadImm _ _ => ⟨"load-imm", 0xF000, 0x6000⟩
  | .addImm _ _ => ⟨"add-imm", 0xF000, 0x7000⟩
  | .assign _ _ => ⟨"assign", 0xF00F, 0x8000⟩
  | .orReg _ _ => ⟨"or", 0xF00F, 0x8001⟩
  | .andReg _ _ => ⟨"and", 0xF00F, 0x8002⟩
  | .xorReg _ _ => ⟨"xor", 0xF00F, 0x8003⟩
  | .addReg _ _ => ⟨"add-reg", 0xF00F, 0x8004⟩
  | .subReg _ _ => ⟨"sub-reg", 0xF00F, 0x8005⟩
  | .shiftRight _ _ => ⟨"shift-right", 0xF00F, 0x8006⟩
  | .subnReg _ _ => ⟨"subn-reg", 0xF00F, 0x8007⟩
  | .shiftLeft _ _ => ⟨"shift-left", 0xF00F, 0x800E⟩
  | .skipNeqReg _ _ => ⟨"skip-neq-reg", 0xF00F, 0x9000⟩
  | .loadIndex _ => ⟨"load-index", 0xF000, 0xA000⟩
  | .jumpOffset _ => ⟨"jump-offset", 0xF000, 0xB000⟩
  | .randomAnd _ _ => ⟨"random-and", 0xF000, 0xC000⟩
  | .draw _ _ _ => ⟨"draw", 0xF000, 0xD000⟩
  | .skipKeyPressed _ => ⟨"skip-key-pressed", 0xF0FF, 0xE09E⟩
  | .skipKeyNotPressed _ => ⟨"skip-key-not-pressed", 0xF0FF, 0xE0A1⟩
  | .getDelay _ => ⟨"get-delay", 0xF0FF, 0xF007⟩
  | .waitForKey _ => ⟨"wait-for-key", 0xF0FF, 0xF00A⟩
  | .setDelay _ => ⟨"set-delay", 0xF0FF, 0xF015⟩
  | .setSound _ => ⟨"set-sound", 0xF0FF, 0xF018⟩
  | .addToIndex _ => ⟨"add-to-index", 0xF0FF, 0xF01E⟩
  | .fontCharAddress _ => ⟨"font-char-address", 0xF0FF, 0xF029⟩
  | .storeBcd _ => ⟨"store-bcd", 0xF0FF, 0xF033⟩
  | .registerDump _ => ⟨"register-dump", 0xF0FF, 0xF055⟩
  | .registerLoad _ => ⟨"register-load", 0xF0FF, 0xF065⟩

/-- A word matches a row (R65). -/
def Row.covers (r : Row) (w : Word) : Bool := w &&& r.mask == r.pattern

/-- The 34 rows of R65, in its order. -/
def opcodeMap : List Row :=
  [Instr.clearScreen.row, Instr.ret.row, (Instr.jump 0).row, (Instr.call 0).row, (Instr.skipEqImm 0 0).row,
    (Instr.skipNeqImm 0 0).row, (Instr.skipEqReg 0 0).row, (Instr.loadImm 0 0).row, (Instr.addImm 0 0).row] ++
  [(Instr.assign 0 0).row, (Instr.orReg 0 0).row, (Instr.andReg 0 0).row, (Instr.xorReg 0 0).row,
    (Instr.addReg 0 0).row, (Instr.subReg 0 0).row, (Instr.shiftRight 0 0).row, (Instr.subnReg 0 0).row,
    (Instr.shiftLeft 0 0).row, (Instr.skipNeqReg 0 0).row] ++
  [(Instr.loadIndex 0).row, (Instr.jumpOffset 0).row, (Instr.randomAnd 0 0).row, (Instr.draw 0 0 0).row,
    (Instr.skipKeyPressed 0).row, (Instr.skipKeyNotPressed 0).row] ++
  [(Instr.getDelay 0).row, (Instr.waitForKey 0).row, (Instr.setDelay 0).row, (Instr.setSound 0).row,
    (Instr.addToIndex 0).row, (Instr.fontCharAddress 0).row, (Instr.storeBcd 0).row,
    (Instr.registerDump 0).row, (Instr.registerLoad 0).row]

end Sys2Proof
end

