-- ==== Sys2Proof/Machine/Flags.lean ====
section
/-! DEFINITION. The flags an instruction leaves in VF (spec/10_state.md R12; spec/41_load_and_alu.md R100).
Draw's collision flag is `Frame.collides`. -/

namespace Sys2Proof.Machine

/-- "`b ? 1 : 0` turns a condition into the 8-bit value 1 or 0" (spec/00_scope.md R6). -/
def flagByte (b : Bool) : Byte := if b then 1 else 0

/-- The carry out of an addition: `a + b > 255` (R100). -/
def carryFlag (a b : Byte) : Bool := decide (a.toNat + b.toNat > 255)

/-- The flag of a subtraction `a - b`: no borrow occurred, `a >= b` (R100). -/
def noBorrowFlag (a b : Byte) : Bool := decide (a.toNat ≥ b.toNat)

/-- The bit shifted out to the right, `a[0]` (R110). -/
def outRightFlag (a : Byte) : Bool := a.getLsbD 0

/-- The bit shifted out to the left, `a[7]` (R112). -/
def outLeftFlag (a : Byte) : Bool := a.getLsbD 7

end Sys2Proof.Machine
end

