-- ==== Sys2Proof/Config.lean ====
section
/-! DEFINITION. The parameters of spec/00_scope.md R5 and the two values the spec leaves free. The OPEN
parameter FONT is an argument (`Machine.State.resetWith`), with a default.
The free values are opaque: nothing in Lean can say what they are. -/

namespace Sys2Proof

/-- Bytes of memory, `MEM_SIZE` (R5): the valid addresses are 0 to 4095. -/
abbrev Config.memSize : Nat := 0x1000

/-- First address of the font bitmap, `FONT_BASE` (R5). -/
abbrev Config.fontBase : Nat := 0x050

/-- Bytes of the font bitmap, `FONT_SIZE` (R5): 16 glyphs of 5 bytes. -/
abbrev Config.fontSize : Nat := 80

/-- Load address of the ROM and reset value of the program counter, `PROG_BASE` (R5). -/
abbrev Config.progBase : Nat := 0x200

/-- Longest ROM, `ROM_MAX` = 4096 - 0x200 (R5). -/
abbrev Config.romMax : Nat := 3584

/-- `MEM_INIT[a]` (R5; spec/92_eei_decisions.md D7): what a byte outside the font region that nothing has
written reads as. A free value, unconstrained. Safe (log entry 3). -/
opaque Config.memInit : Nat → Byte

/-- The bytes the host presents on the random port, one for each random-and (spec/10_state.md R22; D18).
A free value, under no law. Safe (log entry 4). -/
opaque Config.randomByte : Nat → Byte

end Sys2Proof
end

