-- ==== Sys2Proof/Machine/State.lean ====
section
/-! DEFINITION. The state of the machine (spec/10_state.md R10), the ports a step samples (R21, R22), the
reasons a step can stop (spec/60_exceptions.md R170) and the state after reset (R25). -/

namespace Sys2Proof.Machine

/-- Memory as its listed bytes: what reset left in the font region or leaves open is not listed
(Machine/Memory.lean says what an unlisted address reads as, and what the one canonical form is). -/
abbrev Memory := List Host.Cell

/-- The framebuffer: 32 rows of 64 one-bit pixels (R20). Row `y` is `fb[y]`; column `x` of a row is its bit
`63 - x`, so that column 0 is the leftmost digit of the row written in binary (log entry 17). -/
abbrev Frame := Vector (BitVec 64) 32

/-- The complete state of the block (R10), then the input ports and the model's own count. -/
structure State where
  /-- `V[0..15]`, the general registers V0 to VF (R11); `V[15]` is the flag register (R12). -/
  v : Vector Byte 16
  /-- `I`, the index register (R13). -/
  index : Word
  /-- `pc`, the program counter (R14). -/
  pc : Word
  /-- `STACK[0..15]`, the call-stack slots (R16). -/
  stack : Vector Word 16
  /-- `SP`, the number of occupied slots, 0 to 16 (R16). -/
  sp : Fin 17
  /-- `DT`, the delay timer (R17). -/
  dt : Byte
  /-- `ST`, the sound timer (R18). -/
  st : Byte
  /-- `MEM[0..4095]` (R19). -/
  mem : Memory
  /-- `FB[0..31][0..63]` (R20). -/
  fb : Frame
  /-- `KEYS[0..15]`, the key flags as the host presents them (R21): an input port, which no instruction
  writes (log entry 5). -/
  keys : Vector Bool 16
  /-- `RND`, the byte the host presents to the next random-and (R22): an input port (log entry 4). -/
  rnd : Byte
  /-- The model's own: which free byte the host presents after this one (log entry 4). -/
  rndCount : Nat
  deriving DecidableEq, Repr

/-- The five fatal conditions (R170), each with the information it records. -/
inductive Fault where
  /-- Raised by a step at decode: the fetched word matches no row of the opcode map (R66, R171). Safe: the
  spec's own fault. -/
  | unknownOpcode (word : Word)
  /-- Raised by call with all 16 slots occupied (R82, R172). Safe: the spec's own fault. -/
  | stackOverflow
  /-- Raised by return with no slot occupied (R80, R173). Safe: the spec's own fault. -/
  | stackUnderflow
  /-- Raised by the fetch, draw, store-bcd, register-dump and register-load when an address of the access
  exceeds 0x0FFF; the lowest such address (R44, R174). Safe: the spec's own fault. -/
  | addressOutOfRange (address : Word)
  /-- Raised by the load event only, for a ROM longer than 3584 bytes; its length (R175, R201). Safe: the
  spec's own fault. -/
  | romTooLarge (length : Nat)
  deriving DecidableEq, Repr

/-- Why an event is given no meaning. -/
inductive Refusal where
  /-- Raised by exec's arm of an instruction that has no meaning yet. Safe. No arm is such. -/
  | notModelled (mnemonic : String)
  /-- Raised by the load event when it does not directly follow a reset, which the spec asks a model to
  refuse (spec/70_reset_and_hazards.md R201, D26). Safe. No instruction raises it. -/
  | loadNotAfterReset
  deriving DecidableEq, Repr

/-- The machine right after reset (R25, R200), with the default value of the parameter FONT
(`State.resetWith` takes any): memory with nothing listed, so that the font region reads that font and every
other byte MEM_INIT. That `I`, the timers and the framebuffer are cleared is the spec's own
decision (log entry 9); what the ports present is not the spec's (log entry 20). -/
def State.reset : State where
  v := Vector.replicate 16 0
  index := 0
  pc := 0x0200
  stack := Vector.replicate 16 0
  sp := 0
  dt := 0
  st := 0
  mem := []
  fb := Vector.replicate 32 0
  keys := Vector.replicate 16 false
  rnd := Config.randomByte 0
  rndCount := 1

end Sys2Proof.Machine
end

