-- ==== Sys2Proof/Machine/Framebuffer.lean ====
section
/-! DEFINITION. The framebuffer (spec/10_state.md R20) and the sprite blit (spec/43_display.md R141 to
R143). -/

namespace Sys2Proof.Machine

/-- Row `y`; there is none below row 31. -/
def Frame.row (fb : Frame) (y : Nat) : BitVec 64 := if h : y < 32 then fb[y] else 0

/-- `FB[y][x]` (R20): column `x` is bit `63 - x` of row `y`. -/
def Frame.pixel (fb : Frame) (x y : Nat) : Bool := (fb.row y).getMsbD x

/-- All pixels clear (R140). -/
def Frame.clear : Frame := Vector.replicate 32 0

/-- A sprite row placed at column `ox`: bit 7 leftmost, what passes the right edge dropped (R142). -/
def placeByte (b : Byte) (ox : Nat) : BitVec 64 := (b ++ 0#56 : BitVec 64) >>> ox

/-- XOR a row of sprite pixels into row `y`; a row below the bottom edge is dropped (R142). -/
def Frame.xorRow (fb : Frame) (y : Nat) (bits : BitVec 64) : Frame :=
  if h : y < 32 then fb.set y (fb[y] ^^^ bits) else fb

/-- XOR the sprite rows into the framebuffer, the first at row `oy` (R141). -/
def Frame.blit (fb : Frame) (ox : Nat) : Nat → List Byte → Frame
  | _, [] => fb
  | oy, b :: bs => Frame.blit (fb.xorRow oy (placeByte b ox)) ox (oy + 1) bs

/-- Some sprite pixel inside the bounds meets a set pixel (R143). Every framebuffer pixel is touched at most
once in a draw (R142 (f)), so the pixels before the draw decide. -/
def Frame.collides (fb : Frame) (ox : Nat) : Nat → List Byte → Bool
  | _, [] => false
  | oy, b :: bs => (fb.row oy &&& placeByte b ox != 0) || Frame.collides fb ox (oy + 1) bs

end Sys2Proof.Machine
end

