-- ==== Sys2Proof/Machine/Memory.lean ====
section
/-! DEFINITION. Memory (spec/20_memory.md): the font, what an unlisted address reads as, reading and writing
bytes, and the one canonical form. -/

namespace Sys2Proof.Machine

/-- The default FONT, glyph by glyph (R42; supplied by the spec from general knowledge, log entry 2). -/
def fontGlyphs : List (List Byte) :=
  [[0xF0, 0x90, 0x90, 0x90, 0xF0], [0x20, 0x60, 0x20, 0x20, 0x70],
    [0xF0, 0x10, 0xF0, 0x80, 0xF0], [0xF0, 0x10, 0xF0, 0x10, 0xF0]] ++
  [[0x90, 0x90, 0xF0, 0x10, 0x10], [0xF0, 0x80, 0xF0, 0x10, 0xF0],
    [0xF0, 0x80, 0xF0, 0x90, 0xF0], [0xF0, 0x10, 0x20, 0x40, 0x40]] ++
  [[0xF0, 0x90, 0xF0, 0x90, 0xF0], [0xF0, 0x90, 0xF0, 0x10, 0xF0],
    [0xF0, 0x90, 0xF0, 0x90, 0x90], [0xE0, 0x90, 0xE0, 0x90, 0xE0]] ++
  [[0xF0, 0x80, 0x80, 0x80, 0xF0], [0xE0, 0x90, 0x90, 0x90, 0xE0],
    [0xF0, 0x80, 0xF0, 0x80, 0xF0], [0xF0, 0x80, 0xF0, 0x80, 0x80]]

/-- `FONT[i]` for `i` below 80: byte `i mod 5` of glyph `i div 5` (R42). -/
def fontByte (i : Nat) : Byte := (fontGlyphs.getD (i / 5) []).getD (i % 5) 0

/-- A value of the parameter `FONT[0..79]` (spec/00_scope.md R5, D6). It is OPEN: `State.resetWith` takes any. -/
abbrev Font := Vector Byte Config.fontSize

/-- The parameter's default value (R42). -/
def defaultFont : Font := Vector.ofFn fun i => fontByte i.val

/-- What reset with the default font puts at an address, where the spec says what that is: FONT in
[0x050, 0x0A0), nothing elsewhere (R41, R25). Another font's bytes are listed where they differ. -/
def resetByte (a : Nat) : Option Byte :=
  if Config.fontBase ≤ a ∧ a < Config.fontBase + Config.fontSize then some (fontByte (a - Config.fontBase))
  else none

/-- What an unlisted address reads as: what reset put there, and the free value `MEM_INIT` where the spec
leaves the content open (R25, log entry 3). -/
def unlistedByte (a : Nat) : Byte := (resetByte a).getD (Config.memInit a)

/-- The listed byte at an address. -/
def Memory.lookup : Memory → Nat → Option Byte
  | [], _ => none
  | (k, b) :: m, a => if k = a then some b else Memory.lookup m a

/-- The byte at an address: `MEM[a]`. -/
def Memory.read (m : Memory) (a : Nat) : Byte := (m.lookup a).getD (unlistedByte a)

/-- List a byte at its place among rising addresses, in place of the one listed there. -/
def Memory.insert : Memory → Nat → Byte → Memory
  | [], a, b => [(a, b)]
  | (k, c) :: m, a, b =>
    if a < k then (a, b) :: (k, c) :: m
    else if a = k then (a, b) :: m
    else (k, c) :: Memory.insert m a b

/-- Take an address off the list. -/
def Memory.erase (m : Memory) (a : Nat) : Memory := m.filter fun c => c.1 != a

/-- `MEM[a] <- b` (R44). Writing what reset put there takes the address off the list; an address above
0x0FFF names no byte (R40), so nothing is written. -/
def Memory.write (m : Memory) (a : Nat) (b : Byte) : Memory :=
  if Config.memSize ≤ a then m
  else if resetByte a = some b then m.erase a
  else m.insert a b

/-- Write bytes to ascending addresses (R45). -/
def Memory.writeBytes : Memory → Nat → List Byte → Memory
  | m, _, [] => m
  | m, a, b :: bs => Memory.writeBytes (m.write a b) (a + 1) bs

/-- Read bytes from ascending addresses (R45). -/
def Memory.readBytes (m : Memory) (a len : Nat) : List Byte := (List.range len).map fun k => m.read (a + k)

/-- The canonical form from an address on: addresses rise strictly from `lo`, each names a byte, and no
entry is what an unlisted address is known to read as. -/
def Memory.wfFrom : Nat → Memory → Bool
  | _, [] => true
  | lo, (a, b) :: m =>
    decide (lo ≤ a) && decide (a < Config.memSize) && decide (resetByte a ≠ some b) && Memory.wfFrom (a + 1) m

/-- The one canonical form of a memory (log entry 3). -/
def Memory.wf (m : Memory) : Bool := Memory.wfFrom 0 m

end Sys2Proof.Machine
end

