-- ==== Sys2Proof/Machine/Ops.lean ====
section
/-! DEFINITION. The named operations over the state: registers, ports, stack, timers, how an instruction
ends, raising a fault, the range check, and fetching an instruction. -/

namespace Sys2Proof.Machine

/-- What executing an instruction, or a step, answers. -/
abbrev Answer := Host.Outcome State Fault Refusal

/-! ## Registers and ports -/

/-- `V[r]`. -/
def State.getV (s : State) (r : Reg) : Byte := s.v[r]
/-- `V[r] <- b`. -/
def State.setV (s : State) (r : Reg) (b : Byte) : State := { s with v := s.v.set r b }
/-- The whole register file at once. -/
def State.setRegs (s : State) (v : Vector Byte 16) : State := { s with v := v }
/-- VF, the flag register, is V[15] (R12). -/
def flagReg : Reg := 15
/-- `I <- w`. -/
def State.setIndex (s : State) (w : Word) : State := { s with index := w }
/-- `pc <- w`. -/
def State.setPc (s : State) (w : Word) : State := { s with pc := w }
/-- `DT <- b`. -/
def State.setDt (s : State) (b : Byte) : State := { s with dt := b }
/-- `ST <- b`. -/
def State.setSt (s : State) (b : Byte) : State := { s with st := b }
/-- The memory after a store. -/
def State.setMem (s : State) (m : Memory) : State := { s with mem := m }
/-- The framebuffer after a draw or a clear. -/
def State.setFb (s : State) (fb : Frame) : State := { s with fb := fb }
/-- The host presents key flags, all 16 at once (R185). -/
def State.setKeys (s : State) (k : Vector Bool 16) : State := { s with keys := k }
/-- The host presents a byte on the random port (R22). -/
def State.setRnd (s : State) (b : Byte) : State := { s with rnd := b }

/-- After a random-and the host presents another byte, which nothing constrains: "one independent uniformly
distributed byte per invocation" (R22, log entry 4). -/
def State.nextRnd (s : State) : State :=
  { s with rnd := Config.randomByte s.rndCount, rndCount := s.rndCount + 1 }

/-- `MEM[a]` as the machine reads it. -/
def State.readByte (s : State) (a : Nat) : Byte := s.mem.read a
/-- `FB[y][x]`. -/
def State.pixel (s : State) (x y : Nat) : Bool := s.fb.pixel x y

/-- A result in `V[x]` and a flag in VF, the flag written last (R101): with `x = 15` VF holds the flag. -/
def State.setVFlag (s : State) (x : Reg) (b : Byte) (flag : Bool) : State :=
  (s.setV x b).setV flagReg (flagByte flag)

/-- The machine right after reset, for a value of the parameter `FONT[0..79]` (spec/10_state.md R25,
spec/20_memory.md R42): `MEM[0x050 + i] = FONT[i]`, everything else as `State.reset` has it, which is this
with the default font. -/
def State.resetWith (font : Font) : State :=
  State.reset.setMem (State.reset.mem.writeBytes Config.fontBase font.toList)

/-! ## How an instruction ends -/

/-- `npc`, the address of the next sequential instruction (R7). -/
def State.npc (s : State) : Word := s.pc + 2

/-- An instruction whose rule writes no pc ends `Done` with `pc <- npc` (R64). -/
def complete (s : State) : Answer := .next (s.setPc s.npc)

/-- An instruction whose rule writes the pc ends `Done` there (R64). -/
def completeAt (s : State) (target : Word) : Answer := .next (s.setPc target)

/-- A skip adds 2 to npc when its condition holds (spec/40_control_transfer.md R83, R88 (e)). -/
def skipIf (cond : Bool) (s : State) : Answer := completeAt s (if cond then s.npc + 2 else s.npc)

/-- A suspended wait-for-key ends `Waiting`: nothing changes (spec/44_keys_and_timers.md R152). -/
def suspend (s : State) : Answer := .next s

/-! ## Faults (spec/60_exceptions.md)

The one exception entry the spec describes: the step ends with the fault, nothing is committed, nothing is
saved, no vector is consulted and control goes nowhere (R177). There is no return from it (R178). -/

/-- `raise <Fault>(info)`. -/
def raise (f : Fault) : Answer := .fault f

/-- The numeric code of a fault (R170). -/
def Fault.code : Fault → Nat
  | .unknownOpcode _ => 1
  | .stackOverflow => 2
  | .stackUnderflow => 3
  | .addressOutOfRange _ => 4
  | .romTooLarge _ => 5

/-- The information a fault records (R170). -/
def Fault.info : Fault → Option Nat
  | .unknownOpcode w => some w.toNat
  | .stackOverflow => none
  | .stackUnderflow => none
  | .addressOutOfRange a => some a.toNat
  | .romTooLarge n => some n

/-- An access of `len` bytes from `base` is in range: `len = 0` or `base + len - 1 <= 0x0FFF`, without
wrap-around (spec/20_memory.md R44). -/
def inRange (base : Word) (len : Nat) : Bool := decide (len = 0 ∨ base.toNat + len ≤ Config.memSize)

/-- The lowest address of an access that exceeds 0x0FFF: `max(base, 0x1000)` (R44). -/
def offendingAddress (base : Word) : Word := if base.toNat < Config.memSize then 0x1000 else base

/-- Check the whole range of an access before anything is committed (R44). -/
def withRange (base : Word) (len : Nat) (k : Answer) : Answer :=
  if inRange base len then k else raise (.addressOutOfRange (offendingAddress base))

/-! ## The call stack (spec/10_state.md R16) -/

/-- Push a return address; none when all 16 slots are occupied. -/
def State.push (s : State) (a : Word) : Option State :=
  if h : s.sp.val < 16 then
    some { s with stack := s.stack.set s.sp.val a h, sp := ⟨s.sp.val + 1, by omega⟩ }
  else none

/-- Pop the slot on top; none when no slot is occupied. The slot keeps its content (D29). -/
def State.pop (s : State) : Option (Word × State) :=
  if 0 < s.sp.val then
    some (s.stack[s.sp.val - 1]'(by omega), { s with sp := ⟨s.sp.val - 1, by omega⟩ })
  else none

/-! ## The timer unit and the outputs (spec/60_exceptions.md) -/

/-- One timer under a tick: "while nonzero, decrements by 1", clamped at 0 (R181). -/
def countDown (b : Byte) : Byte := if b = 0 then 0 else b - 1

/-- The `tick` event (R181). -/
def State.tick (s : State) : State := { s with dt := countDown s.dt, st := countDown s.st }

/-- The tone output: `ST > 0` (R183). -/
def State.tone (s : State) : Bool := decide (s.st.toNat > 0)

/-- The framebuffer port: 2048 pixels, row-major, element `y * 64 + x` is `FB[y][x]` (R184). -/
def State.framebufferPort (s : State) : List Bool :=
  (List.range 2048).map fun k => s.pixel (k % 64) (k / 64)

/-! ## Fetching an instruction (spec/30_encoding.md R64) -/

/-- The word at an address: two bytes, big-endian, for any parity of the address (R45, R46). -/
def State.fetchWord (s : State) : Word :=
  wordOfBytes (s.readByte s.pc.toNat) (s.readByte (s.pc.toNat + 1))

/-- Fetch and decode: the range check of the two bytes, then the opcode map (R64, R177). -/
def fetchInstr (s : State) : Except Fault Instr :=
  if inRange s.pc 2 then
    match decodeBytes (s.readByte s.pc.toNat) (s.readByte (s.pc.toNat + 1)) with
    | .ok i => .ok i
    | .error (.unknownOpcode w) => .error (.unknownOpcode w)
  else .error (.addressOutOfRange (offendingAddress s.pc))

/-- Store an instruction word big-endian at an address, for the host's question about one instruction. -/
def State.placeWord (s : State) (a : Nat) (w : Word) : State :=
  s.setMem (s.mem.writeBytes a [highByte w, lowByte w])

end Sys2Proof.Machine
end

