-- ==== Sys2Proof/Machine/Operands.lean ====
section
/-! DEFINITION. The operand forms: addresses from the word and from `I`, key numbers, decimal digits, sprite
origin, the registers a transfer names. -/

namespace Sys2Proof.Machine

/-- `zext_16(nnn)` (spec/30_encoding.md R63). -/
def addressOperand (nnn : BitVec 12) : Word := nnn.setWidth 16

/-- `zext_16(V[x])`. -/
def State.wideV (s : State) (x : Reg) : Word := (s.getV x).setWidth 16

/-- The target of jump-offset: `zext_16(nnn) + zext_16(V[0])`, not reduced (spec/40_control_transfer.md R87). -/
def State.offsetTarget (s : State) (nnn : BitVec 12) : Word := addressOperand nnn + s.wideV 0

/-- The address of a glyph: `0x0050 + 5 * (V[x] & 0x0F)` (spec/42_index_and_memory.md R122). -/
def State.glyphAddress (s : State) (x : Reg) : Word :=
  BitVec.ofNat 16 (Config.fontBase + 5 * (s.getV x &&& 0x0F).toNat)

/-- The key a register names: `V[x] & 0x0F` (spec/44_keys_and_timers.md R150). -/
def State.keyOperand (s : State) (x : Reg) : Fin 16 := ((s.getV x).extractLsb' 0 4).toFin

/-- `KEYS[k]`. -/
def State.keyDown (s : State) (k : Fin 16) : Bool := s.keys[k]

/-- The 16 key numbers, rising. -/
def keyNumbers : List (Fin 16) := [0, 1, 2, 3, 4, 5, 6, 7, 8, 9, 10, 11, 12, 13, 14, 15]

/-- The least `k` with `KEYS[k] = 1`, none when no key is down (R152). -/
def State.firstKey (s : State) : Option (Fin 16) := keyNumbers.find? fun k => s.keyDown k

/-- A key number as a register value. -/
def keyByte (k : Fin 16) : Byte := BitVec.ofNat 8 k.val

/-- Hundreds, tens and ones of an 8-bit value (spec/42_index_and_memory.md R123). -/
def bcdDigits (v : Byte) : List Byte :=
  [BitVec.ofNat 8 (v.toNat / 100), BitVec.ofNat 8 (v.toNat / 10 % 10), BitVec.ofNat 8 (v.toNat % 10)]

/-- The column a sprite starts at: `V[x] mod 64` (spec/43_display.md R142). -/
def State.originX (s : State) (x : Reg) : Nat := (s.getV x).toNat % 64

/-- The row a sprite starts at: `V[y] mod 32` (R142). -/
def State.originY (s : State) (y : Reg) : Nat := (s.getV y).toNat % 32

/-- The `n` sprite bytes from `I` (R141). -/
def State.spriteRows (s : State) (n : Nat) : List Byte := s.mem.readBytes s.index.toNat n

/-- The registers V0 to Vx inclusive, in order (spec/42_index_and_memory.md R124). -/
def State.regsUpTo (s : State) (x : Reg) : List Byte := s.v.toList.take (x.val + 1)

/-- The register file with V0 to Vx from the bytes at `I` to `I + x` (R125). -/
def State.loadedRegs (s : State) (x : Reg) : Vector Byte 16 :=
  Vector.ofFn fun k => if k ≤ x then s.readByte (s.index.toNat + k.val) else s.getV k

end Sys2Proof.Machine
end

