-- ==== Sys2Proof/Machine/Alu.lean ====
section
/-! DEFINITION. Register load, arithmetic and logic (spec/41_load_and_alu.md). All operands are read before
anything is written, and a flag is written last (R101). None of these can fault. -/

namespace Sys2Proof.Machine

/-- load-imm (R102). -/
def execLoadImm (x : Reg) (kk : Byte) (s : State) : Answer := complete (s.setV x kk)

/-- add-imm (R103): no flag. -/
def execAddImm (x : Reg) (kk : Byte) (s : State) : Answer := complete (s.setV x (s.getV x + kk))

/-- assign (R104). -/
def execAssign (x y : Reg) (s : State) : Answer := complete (s.setV x (s.getV y))

/-- or (R105). -/
def execOrReg (x y : Reg) (s : State) : Answer := complete (s.setV x (s.getV x ||| s.getV y))

/-- and (R106). -/
def execAndReg (x y : Reg) (s : State) : Answer := complete (s.setV x (s.getV x &&& s.getV y))

/-- xor (R107). -/
def execXorReg (x y : Reg) (s : State) : Answer := complete (s.setV x (s.getV x ^^^ s.getV y))

/-- add-reg (R108). -/
def execAddReg (x y : Reg) (s : State) : Answer :=
  complete (s.setVFlag x (s.getV x + s.getV y) (carryFlag (s.getV x) (s.getV y)))

/-- sub-reg (R109). -/
def execSubReg (x y : Reg) (s : State) : Answer :=
  complete (s.setVFlag x (s.getV x - s.getV y) (noBorrowFlag (s.getV x) (s.getV y)))

/-- shift-right (R110); the `y` field is neither checked nor read (R68). -/
def execShiftRight (x : Reg) (s : State) : Answer :=
  complete (s.setVFlag x (s.getV x >>> 1) (outRightFlag (s.getV x)))

/-- subn-reg (R111). -/
def execSubnReg (x y : Reg) (s : State) : Answer :=
  complete (s.setVFlag x (s.getV y - s.getV x) (noBorrowFlag (s.getV y) (s.getV x)))

/-- shift-left (R112); the `y` field is neither checked nor read (R68). -/
def execShiftLeft (x : Reg) (s : State) : Answer :=
  complete (s.setVFlag x (s.getV x <<< 1) (outLeftFlag (s.getV x)))

/-- random-and (R113): the byte on the random port, which then presents another. -/
def execRandomAnd (x : Reg) (kk : Byte) (s : State) : Answer := complete (s.setV x (s.rnd &&& kk)).nextRnd

end Sys2Proof.Machine
end

