-- ==== Sys2Proof/Machine/Control.lean ====
section
/-! DEFINITION. Control transfer (spec/40_control_transfer.md). A target is never range-checked here: the
check belongs to the next fetch (R88 (d)). -/

namespace Sys2Proof.Machine

/-- return (R80). -/
def execRet (s : State) : Answer :=
  match s.pop with
  | some (target, t) => completeAt t target
  | none => raise .stackUnderflow

/-- jump (R81). -/
def execJump (nnn : BitVec 12) (s : State) : Answer := completeAt s (addressOperand nnn)

/-- call (R82): what is pushed is npc. -/
def execCall (nnn : BitVec 12) (s : State) : Answer :=
  match s.push s.npc with
  | some t => completeAt t (addressOperand nnn)
  | none => raise .stackOverflow

/-- skip-eq-imm (R83). -/
def execSkipEqImm (x : Reg) (kk : Byte) (s : State) : Answer := skipIf (s.getV x == kk) s

/-- skip-neq-imm (R84). -/
def execSkipNeqImm (x : Reg) (kk : Byte) (s : State) : Answer := skipIf (s.getV x != kk) s

/-- skip-eq-reg (R85). -/
def execSkipEqReg (x y : Reg) (s : State) : Answer := skipIf (s.getV x == s.getV y) s

/-- skip-neq-reg (R86). -/
def execSkipNeqReg (x y : Reg) (s : State) : Answer := skipIf (s.getV x != s.getV y) s

/-- jump-offset (R87). -/
def execJumpOffset (nnn : BitVec 12) (s : State) : Answer := completeAt s (s.offsetTarget nnn)

end Sys2Proof.Machine
end

