-- ==== Sys2Proof/Machine/Display.lean ====
section
/-! DEFINITION. The display instructions (spec/43_display.md). -/

namespace Sys2Proof.Machine

/-- clear-screen (R140). -/
def execClearScreen (s : State) : Answer := complete (s.setFb Frame.clear)

/-- draw (R141): all `n` sprite addresses are checked, the operands are read, the blit is made and VF gets
the collision flag, also when `n = 0`. -/
def execDraw (x y : Reg) (n : Nat) (s : State) : Answer :=
  withRange s.index n
    (complete ((s.setFb (s.fb.blit (s.originX x) (s.originY y) (s.spriteRows n))).setV flagReg
      (flagByte (s.fb.collides (s.originX x) (s.originY y) (s.spriteRows n)))))

end Sys2Proof.Machine
end

