-- ==== Sys2Proof/Machine/Index.lean ====
section
/-! DEFINITION. The index register and memory (spec/42_index_and_memory.md). The whole range is checked
before a byte moves (spec/20_memory.md R44), and `I` keeps its value in every transfer (R126). -/

namespace Sys2Proof.Machine

/-- load-index (R120). -/
def execLoadIndex (nnn : BitVec 12) (s : State) : Answer := complete (s.setIndex (addressOperand nnn))

/-- add-to-index (R121): modulo 65536, no flag, no fault. -/
def execAddToIndex (x : Reg) (s : State) : Answer := complete (s.setIndex (s.index + s.wideV x))

/-- font-char-address (R122). -/
def execFontCharAddress (x : Reg) (s : State) : Answer := complete (s.setIndex (s.glyphAddress x))

/-- store-bcd (R123). -/
def execStoreBcd (x : Reg) (s : State) : Answer :=
  withRange s.index 3 (complete (s.setMem (s.mem.writeBytes s.index.toNat (bcdDigits (s.getV x)))))

/-- register-dump (R124). -/
def execRegisterDump (x : Reg) (s : State) : Answer :=
  withRange s.index (x.val + 1) (complete (s.setMem (s.mem.writeBytes s.index.toNat (s.regsUpTo x))))

/-- register-load (R125). -/
def execRegisterLoad (x : Reg) (s : State) : Answer :=
  withRange s.index (x.val + 1) (complete (s.setRegs (s.loadedRegs x)))

end Sys2Proof.Machine
end

