-- ==== Sys2Proof/Machine/Keys.lean ====
section
/-! DEFINITION. Keys and timers (spec/44_keys_and_timers.md). -/

namespace Sys2Proof.Machine

/-- skip-key-pressed (R150). -/
def execSkipKeyPressed (x : Reg) (s : State) : Answer := skipIf (s.keyDown (s.keyOperand x)) s

/-- skip-key-not-pressed (R151). -/
def execSkipKeyNotPressed (x : Reg) (s : State) : Answer := skipIf (!s.keyDown (s.keyOperand x)) s

/-- wait-for-key (R152): by level, the least key number; with no key down nothing changes. -/
def execWaitForKey (x : Reg) (s : State) : Answer :=
  match s.firstKey with
  | none => suspend s
  | some k => complete (s.setV x (keyByte k))

/-- get-delay (R153). -/
def execGetDelay (x : Reg) (s : State) : Answer := complete (s.setV x s.dt)

/-- set-delay (R154). -/
def execSetDelay (x : Reg) (s : State) : Answer := complete (s.setDt (s.getV x))

/-- set-sound (R155). -/
def execSetSound (x : Reg) (s : State) : Answer := complete (s.setSt (s.getV x))

end Sys2Proof.Machine
end

