-- ==== Sys2Proof/Machine/Step.lean ====
section
/-! DEFINITION. The `step` event (spec/30_encoding.md R64) on the ports the state holds. -/

namespace Sys2Proof.Machine

/-- Fetch, decode, execute. Every write of an instruction stands in the one next state its meaning answers,
and a fault answers no state, so the effects are committed all together or not at all. -/
def step (s : State) : Host.Outcome State Fault Refusal :=
  match fetchInstr s with
  | .ok i => exec i s
  | .error f => .fault f

/-- The state with an instruction, numbered as spec/opcode_table.json numbers it, stored where the next step
fetches: big-endian at `pc` and `pc + 1`. It stands for the `load` that brings a program (log entry 7). -/
def State.withFetchWord (s : State) (nbits w : Nat) : State :=
  s.placeWord s.pc.toNat (BitVec.ofNat 16 (w % 2 ^ nbits))

end Sys2Proof.Machine
end

