-- ==== Sys2Proof/Machine/Events.lean ====
section
/-! DEFINITION. Everything a host can do to the block (spec/70_reset_and_hazards.md R203): the events reset,
load, step and tick, and what it gets back. `Sys2Proof.Machine.step` is the one event `step` on the ports as
they stand. -/

namespace Sys2Proof.Machine

/-- The events (R203). A step comes with the 16 key flags and the random byte the host presents. -/
inductive Event where
  | reset
  | load (rom : List Byte)
  | step (keys : Vector Bool 16) (rnd : Byte)
  | tick
  deriving DecidableEq, Repr

/-- What the host gets back (R203; spec/00_scope.md R8). -/
inductive Report where
  /-- The event has been carried out: reset, tick, an accepted load. -/
  | ok
  /-- The step completed one instruction. -/
  | done
  /-- The step executed wait-for-key and no key was down. -/
  | waiting
  /-- A fatal condition, nothing changed. -/
  | fault (f : Fault)
  /-- The model gives the event no meaning. -/
  | refused (r : Refusal)
  deriving DecidableEq, Repr

/-- The machine under a host: the parameter FONT, which no event changes (R26, log entry 2), the state, and
whether a `load` now would directly follow a reset, with at most ticks between (R201, log entry 18). -/
structure Session where
  font : Font
  machine : State
  loadable : Bool
  deriving DecidableEq, Repr

/-- The `reset` event on a machine in use (R200): the same state at any time; what the ports present is not
reset (R25, log entry 20). -/
def State.restart (s : State) (font : Font) : State :=
  { State.resetWith font with keys := s.keys, rnd := s.rnd, rndCount := s.rndCount }

/-- The machine at initialization, which a `load` may follow (R202). -/
def Session.reset (font : Font) : Session := ⟨font, State.resetWith font, true⟩

/-- The ROM written verbatim from 0x200 (R201). -/
def State.loadRom (s : State) (rom : List Byte) : State := s.setMem (s.mem.writeBytes Config.progBase rom)

/-- The step at hand would be a wait-for-key with no key down (R187). -/
def State.waits (s : State) : Bool :=
  match fetchInstr s with
  | .ok (.waitForKey _) => s.firstKey.isNone
  | _ => false

/-- The state with what the host presents at a step (R21, R22). -/
def State.present (s : State) (keys : Vector Bool 16) (rnd : Byte) : State := (s.setKeys keys).setRnd rnd

/-- The `load` event (R201): refused unless it directly follows a reset, a fault with nothing written when
the ROM is too long (another load may be tried), else the ROM in memory and nothing else changed. -/
def Session.load (c : Session) (rom : List Byte) : Report × Session :=
  if !c.loadable then (.refused .loadNotAfterReset, c)
  else if rom.length > Config.romMax then (.fault (.romTooLarge rom.length), c)
  else (.ok, ⟨c.font, c.machine.loadRom rom, false⟩)

/-- The `step` event with the inputs presented (R64, R203). A fault or a refusal keeps the state. -/
def Session.step (c : Session) (keys : Vector Bool 16) (rnd : Byte) : Report × Session :=
  let s := c.machine.present keys rnd
  match Sys2Proof.Machine.step s with
  | .next t => (if s.waits then .waiting else .done, ⟨c.font, t, false⟩)
  | .fault f => (.fault f, ⟨c.font, s, false⟩)
  | .refused r => (.refused r, ⟨c.font, s, false⟩)

/-- One event of the host (R203). A tick is taken at any time, after a fault too (R182). -/
def Session.apply (c : Session) : Event → Report × Session
  | .reset => (.ok, ⟨c.font, c.machine.restart c.font, true⟩)
  | .load rom => c.load rom
  | .step keys rnd => c.step keys rnd
  | .tick => (.ok, ⟨c.font, c.machine.tick, c.loadable⟩)

/-- The events of a host in the order it issues them (spec/20_memory.md R49), with their reports. -/
def Session.run (c : Session) : List Event → List Report × Session
  | [] => ([], c)
  | e :: es =>
    let (r, c') := c.apply e
    let (rs, c'') := c'.run es
    (r :: rs, c'')

end Sys2Proof.Machine
end

