-- ==== Sys2Proof/Machine/Run.lean ====
section
/-! DEFINITION. The end of a run (spec/70_reset_and_hazards.md R208). The machine has no halt: the model says
itself when a run has ended, and a fault is never an end (spec/60_exceptions.md R178; log entry 23). -/

namespace Sys2Proof.Machine

/-- "`pc` holds the address of such a word", a jump to its own address (R208; spec/30_encoding.md R70). -/
def State.atHalt (s : State) : Bool :=
  match fetchInstr s with
  | .ok (.jump nnn) => decide (addressOperand nnn = s.pc)
  | _ => false

/-- What ends a run, in the model's own terms: "a `pc` value reached, a step count" (R208), or the spec's halt
convention. -/
inductive EndWhen where
  /-- `pc` holds the address of a jump to itself. -/
  | atHalt
  /-- `pc` holds this address. -/
  | pcReached (address : Word)
  /-- This many steps have been taken since the run began, a step that waits among them. -/
  | stepsTaken (count : Nat)
  deriving DecidableEq, Repr

/-- The run has reached its end, after `taken` steps, in this state. -/
def EndWhen.met (w : EndWhen) (taken : Nat) (s : State) : Bool :=
  match w with
  | .atHalt => s.atHalt
  | .pcReached address => decide (s.pc = address)
  | .stepsTaken count => decide (count ≤ taken)

/-- How a run comes out. -/
inductive RunEnd where
  /-- The end was reached, after a step that completed or waits. -/
  | ended
  /-- A step faulted: the machine has stopped for good (R178). -/
  | faulted (f : Fault)
  /-- A step was given no meaning. Safe. No step is such. -/
  | refused (r : Refusal)
  /-- The host stopped issuing events before the end was reached. -/
  | outOfEvents
  deriving DecidableEq, Repr

/-- A run under the host's events, looked at after every step (R208). A reset begins a new run; a rejected
`load` is recoverable (R175) and ends nothing. -/
def Session.runUntil (w : EndWhen) (taken : Nat) (c : Session) : List Event → RunEnd × Session
  | [] => (.outOfEvents, c)
  | .step keys rnd :: es =>
    match c.step keys rnd with
    | (.fault f, c') => (.faulted f, c')
    | (.refused r, c') => (.refused r, c')
    | (_, c') => if w.met (taken + 1) c'.machine then (.ended, c') else c'.runUntil w (taken + 1) es
  | .reset :: es => (c.apply .reset).2.runUntil w 0 es
  | .load rom :: es => (c.apply (.load rom)).2.runUntil w taken es
  | .tick :: es => (c.apply .tick).2.runUntil w taken es

end Sys2Proof.Machine
end

