-- ==== Sys2Proof/Safety.lean ====
section
/-! DEFINITION. The words claims are stated in: what stays the same between two states, part by part, the
invariant of the machine, where each instruction leaves the program counter and VF, and the sprite blit as the
spec's pseudocode writes it. -/

namespace Sys2Proof.Machine

/-! ## What stays the same -/

/-- Every general register. -/
def SameRegs (s t : State) : Prop := ∀ r, t.getV r = s.getV r

/-- Every general register but one. -/
def SameRegsBut (x : Reg) (s t : State) : Prop := ∀ r, r ≠ x → t.getV r = s.getV r

/-- Every general register but one and the flag register VF. -/
def SameRegsButFlag (x : Reg) (s t : State) : Prop := ∀ r, r ≠ x → r ≠ flagReg → t.getV r = s.getV r

/-- The call stack: the depth and every slot. -/
def SameStack (s t : State) : Prop := t.sp = s.sp ∧ ∀ k : Fin 16, t.stack[k] = s.stack[k]

/-- Both timers. -/
def SameTimers (s t : State) : Prop := t.dt = s.dt ∧ t.st = s.st

/-- Every byte of memory. -/
def SameMem (s t : State) : Prop := ∀ a, t.readByte a = s.readByte a

/-- Every byte of memory outside the `len` bytes from `base`. -/
def SameMemOutside (base len : Nat) (s t : State) : Prop :=
  ∀ a, a < base ∨ base + len ≤ a → t.readByte a = s.readByte a

/-- Every pixel. -/
def SameScreen (s t : State) : Prop := ∀ x y, x < 64 → y < 32 → t.pixel x y = s.pixel x y

/-- What the host presents. -/
def SamePorts (s t : State) : Prop := t.keys = s.keys ∧ t.rnd = s.rnd ∧ t.rndCount = s.rndCount

/-- Nothing but general registers and the program counter may differ. -/
def OnlyRegsAndPc (s t : State) : Prop :=
  t.index = s.index ∧ SameStack s t ∧ SameTimers s t ∧ SameMem s t ∧ SameScreen s t ∧ SamePorts s t

/-- Nothing but the program counter may differ. -/
def OnlyPc (s t : State) : Prop := SameRegs s t ∧ OnlyRegsAndPc s t

/-- Nothing but the index register and the program counter may differ. -/
def OnlyIndexAndPc (s t : State) : Prop :=
  SameRegs s t ∧ SameStack s t ∧ SameTimers s t ∧ SameMem s t ∧ SameScreen s t ∧ SamePorts s t

/-- Nothing but memory and the program counter may differ. -/
def OnlyMemAndPc (s t : State) : Prop :=
  SameRegs s t ∧ t.index = s.index ∧ SameStack s t ∧ SameTimers s t ∧ SameScreen s t ∧ SamePorts s t

/-- Nothing but the call stack and the program counter may differ. -/
def OnlyStackAndPc (s t : State) : Prop :=
  SameRegs s t ∧ t.index = s.index ∧ SameTimers s t ∧ SameMem s t ∧ SameScreen s t ∧ SamePorts s t

/-- Nothing but the timers and the program counter may differ. -/
def OnlyTimersAndPc (s t : State) : Prop :=
  SameRegs s t ∧ t.index = s.index ∧ SameStack s t ∧ SameMem s t ∧ SameScreen s t ∧ SamePorts s t

/-- Nothing but the framebuffer, general registers and the program counter may differ. -/
def OnlyScreenRegsAndPc (s t : State) : Prop :=
  t.index = s.index ∧ SameStack s t ∧ SameTimers s t ∧ SameMem s t ∧ SamePorts s t

/-! ## The invariant -/

/-- What holds at reset and after every event: memory has its canonical form, the program counter holds a
value a rule can have written (at most 0x10FE, spec/10_state.md R15), and every occupied slot of the call
stack holds an earlier npc (at most 0x1000, spec/40_control_transfer.md R80). -/
def State.Inv (s : State) : Prop :=
  s.mem.wf = true ∧ s.pc.toNat ≤ 0x10FE ∧
    ∀ k : Fin 16, k.val < s.sp.val → (s.stack[k]).toNat ≤ 0x1000

/-! ## Where an instruction leaves the program counter and the flag register -/

/-- The program counter after an instruction that completes from `s` in `t` (spec/10_state.md R15): each
transfer at its target, each skip by its own condition, wait-for-key where it is while no key is down, and every
other instruction at npc. -/
def PcRule (s t : State) : Instr → Prop
  | .jump nnn | .call nnn => t.pc.toNat = nnn.toNat
  | .jumpOffset nnn => t.pc.toNat = nnn.toNat + (s.getV 0).toNat ∧ t.pc.toNat ≤ 0x10FE
  | .ret => ∃ k : Fin 16, s.sp.val = k.val + 1 ∧ t.pc = s.stack[k]
  | .skipEqImm x kk => t.pc = if s.getV x = kk then s.pc + 2 + 2 else s.pc + 2
  | .skipNeqImm x kk => t.pc = if s.getV x = kk then s.pc + 2 else s.pc + 2 + 2
  | .skipEqReg x y => t.pc = if s.getV x = s.getV y then s.pc + 2 + 2 else s.pc + 2
  | .skipNeqReg x y => t.pc = if s.getV x = s.getV y then s.pc + 2 else s.pc + 2 + 2
  | .skipKeyPressed x =>
    ∀ k : Fin 16, k.val = (s.getV x).toNat % 16 → t.pc = if s.keys[k] = true then s.pc + 2 + 2 else s.pc + 2
  | .skipKeyNotPressed x =>
    ∀ k : Fin 16, k.val = (s.getV x).toNat % 16 → t.pc = if s.keys[k] = true then s.pc + 2 else s.pc + 2 + 2
  | .waitForKey _ =>
    ((∀ k : Fin 16, s.keys[k] = false) → t = s) ∧ ((∃ k : Fin 16, s.keys[k] = true) → t.pc = s.pc + 2)
  | .clearScreen | .loadImm _ _ | .addImm _ _ | .assign _ _ | .orReg _ _ | .andReg _ _ | .xorReg _ _
  | .addReg _ _ | .subReg _ _ | .shiftRight _ _ | .subnReg _ _ | .shiftLeft _ _ | .loadIndex _ | .randomAnd _ _
  | .draw _ _ _ | .getDelay _ | .setDelay _ | .setSound _ | .addToIndex _ | .fontCharAddress _ | .storeBcd _
  | .registerDump _ | .registerLoad _ => t.pc = s.pc + 2

/-- VF after an instruction that completes from `s` in `t` (spec/10_state.md R12): 0 or 1 after each of the six
that write it as a flag; else as it was, unless VF is the destination. -/
def FlagRule (s t : State) : Instr → Prop
  | .addReg _ _ | .subReg _ _ | .subnReg _ _ | .shiftRight _ _ | .shiftLeft _ _ | .draw _ _ _ =>
    t.getV 15 = 0 ∨ t.getV 15 = 1
  | .loadImm x _ | .addImm x _ | .assign x _ | .orReg x _ | .andReg x _ | .xorReg x _ | .randomAnd x _
  | .waitForKey x | .getDelay x | .registerLoad x => x ≠ 15 → t.getV 15 = s.getV 15
  | .clearScreen | .ret | .jump _ | .call _ | .jumpOffset _ | .skipEqImm _ _ | .skipNeqImm _ _ | .skipEqReg _ _
  | .skipNeqReg _ _ | .skipKeyPressed _ | .skipKeyNotPressed _ | .loadIndex _ | .setDelay _ | .setSound _
  | .addToIndex _ | .fontCharAddress _ | .storeBcd _ | .registerDump _ => t.getV 15 = s.getV 15

/-! ## The blit as the pseudocode of spec/43_display.md R141 writes it -/

/-- A framebuffer under the pseudocode's loops with the collision so far. -/
abbrev BlitState := (Nat → Nat → Bool) × Bool

/-- The body of the inner loop, at column offset `c` of the sprite byte `b` in row `py`. -/
def blitColumn (b : Byte) (ox py : Nat) (st : BlitState) (c : Nat) : BlitState :=
  let px := ox + c
  if px > 63 then st
  else if b.getLsbD (7 - c) then
    (fun x y => if x = px ∧ y = py then !st.1 x y else st.1 x y, if st.1 px py then true else st.2)
  else st

/-- The body of the outer loop, at sprite row `r`. -/
def blitRow (s : State) (ox oy : Nat) (st : BlitState) (r : Nat) : BlitState :=
  let b := s.readByte (s.index.toNat + r)
  let py := oy + r
  if py > 31 then st else (List.range 8).foldl (blitColumn b ox py) st

/-- Both loops, from the framebuffer before the draw and no collision. -/
def blitLoops (s : State) (ox oy n : Nat) : BlitState :=
  (List.range n).foldl (blitRow s ox oy) (fun x y => s.pixel x y, false)

end Sys2Proof.Machine
end

