-- ==== Sys2Proof/Certificates/Slice0/Obligations.lean ====
section
/-! DEFINITION. The statements for the provers. Each is about the machine; each docstring names the rule of
the spec it comes from, and the log entry where a clause is a decision and not the source's own. An instruction
rule's Encoding line is a reference to the opcode map (R65), whose patterns are decision D1 (log entry 1):
SampleWordsDecode, DecoderAgreesWithOpcodeMap and DecodeOfEncode state it for all instructions, so the
statements about one instruction do not repeat it. -/

open Sys2Proof Sys2Proof.Machine

/-! ## Reset, fetch, decode -/

/-- R25, R200, R42, for every value of the OPEN parameter FONT; `State.reset` has the default font, whose 80
bytes are the spec's table (log entry 2). The values of I, DT, ST and the framebuffer are decision D8 (log
entry 9), MEM_INIT is the free value of D7 (log entry 3). -/
def Obligations.ResetLeavesTheStatedValues : Prop :=
  (∀ (font : Font) (s : State), s = State.resetWith font →
    (∀ r, s.getV r = 0) ∧ s.index = 0 ∧ s.pc = 0x0200 ∧ s.sp.val = 0 ∧ (∀ k : Fin 16, s.stack[k] = 0) ∧
    s.dt = 0 ∧ s.st = 0 ∧ s.tone = false ∧ (∀ x y, s.pixel x y = false) ∧
    (∀ i (h : i < 80), s.readByte (0x050 + i) = font[i]) ∧
    (∀ a, a < 0x1000 → a < 0x050 ∨ 0x0A0 ≤ a → s.readByte a = Config.memInit a)) ∧
  State.reset = State.resetWith defaultFont ∧
  (List.range 80).map (fun i => State.reset.readByte (0x050 + i)) =
    [0xF0, 0x90, 0x90, 0x90, 0xF0, 0x20, 0x60, 0x20, 0x20, 0x70, 0xF0, 0x10, 0xF0, 0x80, 0xF0] ++
    [0xF0, 0x10, 0xF0, 0x10, 0xF0, 0x90, 0x90, 0xF0, 0x10, 0x10, 0xF0, 0x80, 0xF0, 0x10, 0xF0] ++
    [0xF0, 0x80, 0xF0, 0x90, 0xF0, 0xF0, 0x10, 0x20, 0x40, 0x40, 0xF0, 0x90, 0xF0, 0x90, 0xF0] ++
    [0xF0, 0x90, 0xF0, 0x10, 0xF0, 0xF0, 0x90, 0xF0, 0x90, 0x90, 0xE0, 0x90, 0xE0, 0x90, 0xE0] ++
    [0xF0, 0x80, 0x80, 0x80, 0xF0, 0xE0, 0x90, 0x90, 0x90, 0xE0, 0xF0, 0x80, 0xF0, 0x80, 0xF0] ++
    [0xF0, 0x80, 0xF0, 0x80, 0x80]

/-- R64: a step of the machine is the meaning of the instruction at the program counter, and nothing is
added around it. -/
def Obligations.StepRunsTheDecodedInstruction : Prop :=
  ∀ (s : State) (i : Instr), s.pc.toNat ≤ 0x0FFE →
    decode (wordOfBytes (s.readByte s.pc.toNat) (s.readByte (s.pc.toNat + 1))) = some i →
    i.wf = true ∧ step s = exec i s ∧ Sys2Proof.core.step s = exec i s

/-- R64, R174 (a), R177: when a step faults, and with what: first the fetch, then the decoding, then the
instruction. The order is decision D20 (log entry 21), the fault on every unmatched word decision D4 (log entry
16), the reported address decision D14 (log entry 14). -/
def Obligations.StepFaultsInTheFixedOrder : Prop :=
  ∀ (s : State) (f : Fault), step s = .fault f ↔
    (0x0FFE < s.pc.toNat ∧ ∃ a : Word, a.toNat = max s.pc.toNat 0x1000 ∧ f = .addressOutOfRange a) ∨
    (s.pc.toNat ≤ 0x0FFE ∧ decode s.fetchWord = none ∧ f = .unknownOpcode s.fetchWord) ∨
    (s.pc.toNat ≤ 0x0FFE ∧ ∃ i, decode s.fetchWord = some i ∧ exec i s = .fault f)

/-- R65: sample words, one or more of each of the 16 classes, written out from the opcode map, whose patterns
are decision D1 (log entry 1). -/
def Obligations.SampleWordsDecode : Prop :=
  decode 0x00E0 = some .clearScreen ∧ decode 0x00EE = some .ret ∧ decode 0x1ABC = some (.jump 0xABC) ∧
  decode 0x220A = some (.call 0x20A) ∧ decode 0x3A42 = some (.skipEqImm 10 0x42) ∧
  decode 0x4211 = some (.skipNeqImm 2 0x11) ∧ decode 0x5340 = some (.skipEqReg 3 4) ∧
  decode 0x6A7F = some (.loadImm 10 0x7F) ∧ decode 0x7102 = some (.addImm 1 0x02) ∧
  decode 0x9120 = some (.skipNeqReg 1 2) ∧ decode 0x8F14 = some (.addReg 15 1) ∧
  decode 0x8346 = some (.shiftRight 3 4) ∧ decode 0xA300 = some (.loadIndex 0x300) ∧
  decode 0xBFFF = some (.jumpOffset 0xFFF) ∧ decode 0xC10F = some (.randomAnd 1 0x0F) ∧
  decode 0xD125 = some (.draw 1 2 5) ∧ decode 0xE59E = some (.skipKeyPressed 5) ∧
  decode 0xF30A = some (.waitForKey 3) ∧ decode 0xF265 = some (.registerLoad 2)

/-- R66: the illegal words, exactly. Exact matching is decision D3, 0NNN is decision D5 (log entry 16). -/
def Obligations.IllegalWordsAreExactly : Prop :=
  ∀ w : Word, decode w = none ↔
    (w.toNat / 4096 = 0 ∧ w.toNat ≠ 0x00E0 ∧ w.toNat ≠ 0x00EE) ∨
    (w.toNat / 4096 = 5 ∧ w.toNat % 16 ≠ 0) ∨
    (w.toNat / 4096 = 8 ∧ w.toNat % 16 ∈ [8, 9, 0xA, 0xB, 0xC, 0xD, 0xF]) ∨
    (w.toNat / 4096 = 9 ∧ w.toNat % 16 ≠ 0) ∨
    (w.toNat / 4096 = 0xE ∧ w.toNat % 256 ∉ [0x9E, 0xA1]) ∨
    (w.toNat / 4096 = 0xF ∧ w.toNat % 256 ∉ [0x07, 0x0A, 0x15, 0x18, 0x1E, 0x29, 0x33, 0x55, 0x65])

/-- R65: the decoder and the table of masks and patterns agree, and no word matches two rows. -/
def Obligations.DecoderAgreesWithOpcodeMap : Prop :=
  (∀ (w : Word) (i : Instr), decode w = some i → i.row ∈ opcodeMap ∧ i.row.covers w = true) ∧
  (∀ w : Word, decode w = none → ∀ r ∈ opcodeMap, r.covers w = false) ∧
  (∀ (w : Word) (r r' : Row), r ∈ opcodeMap → r' ∈ opcodeMap → r.covers w = true → r'.covers w = true → r = r')

/-- R65, R71, R63: the decoder reads back every operand of every well-formed instruction. -/
def Obligations.DecodeOfEncode : Prop :=
  ∀ i : Instr, i.wf = true →
    decode (encode i) = some i ∧ decodeBytes (highByte (encode i)) (lowByte (encode i)) = .ok i ∧
    decodeTableWord 16 (encode i).toNat = some i

/-- R65, R71: every legal word is the word of exactly the instruction it decodes to, which is well formed. -/
def Obligations.EncodeOfDecode : Prop :=
  ∀ (w : Word) (i : Instr), decode w = some i → i.wf = true ∧ encode i = w

/-- R51 (decision D25, log entry 19): a store is seen by the very next fetch, wherever in range the program
counter stands. -/
def Obligations.StoredWordIsFetched : Prop :=
  ∀ (s : State) (i : Instr), s.pc.toNat ≤ 0x0FFE → i.wf = true →
    (s.placeWord s.pc.toNat (encode i)).fetchWord = encode i ∧
    step (s.withFetchWord 16 (encode i).toNat) = exec i (s.withFetchWord 16 (encode i).toNat)

/-! ## Control transfer -/

/-- R80: return. That the popped slot keeps its content is decision D29 (log entry 19). -/
def Obligations.ReturnPopsTheStack : Prop :=
  ∀ s : State,
    (s.sp.val = 0 → exec .ret s = .fault .stackUnderflow) ∧
    (∀ k : Fin 16, s.sp.val = k.val + 1 → ∃ t, exec .ret s = .next t ∧ t.pc = s.stack[k] ∧ t.sp.val = k.val ∧
      (∀ j : Fin 16, t.stack[j] = s.stack[j]) ∧ OnlyStackAndPc s t)

/-- R81: jump. -/
def Obligations.JumpGoesToNNN : Prop :=
  ∀ (s : State) (nnn : BitVec 12), ∃ t, exec (.jump nnn) s = .next t ∧ t.pc.toNat = nnn.toNat ∧ OnlyPc s t

/-- R82: call. -/
def Obligations.CallPushesNpc : Prop :=
  ∀ (s : State) (nnn : BitVec 12),
    (s.sp.val = 16 → exec (.call nnn) s = .fault .stackOverflow) ∧
    (∀ k : Fin 16, s.sp.val = k.val → ∃ t, exec (.call nnn) s = .next t ∧ t.pc.toNat = nnn.toNat ∧
      t.sp.val = k.val + 1 ∧ t.stack[k] = s.pc + 2 ∧ (∀ j : Fin 16, j ≠ k → t.stack[j] = s.stack[j]) ∧
      OnlyStackAndPc s t)

/-- R83, R84: the skips on an immediate. -/
def Obligations.SkipsOnImmediate : Prop :=
  ∀ (s : State) (x : Reg) (kk : Byte),
    (∃ t, exec (.skipEqImm x kk) s = .next t ∧
      t.pc = (if (s.getV x).toNat = kk.toNat then s.pc + 2 + 2 else s.pc + 2) ∧ OnlyPc s t) ∧
    (∃ t, exec (.skipNeqImm x kk) s = .next t ∧
      t.pc = (if (s.getV x).toNat ≠ kk.toNat then s.pc + 2 + 2 else s.pc + 2) ∧ OnlyPc s t)

/-- R85, R86: the skips on two registers. -/
def Obligations.SkipsOnRegisters : Prop :=
  ∀ (s : State) (x y : Reg),
    (∃ t, exec (.skipEqReg x y) s = .next t ∧
      t.pc = (if (s.getV x).toNat = (s.getV y).toNat then s.pc + 2 + 2 else s.pc + 2) ∧ OnlyPc s t) ∧
    (∃ t, exec (.skipNeqReg x y) s = .next t ∧
      t.pc = (if (s.getV x).toNat ≠ (s.getV y).toNat then s.pc + 2 + 2 else s.pc + 2) ∧ OnlyPc s t)

/-- R87: jump-offset, unreduced (decision D15, log entry 13). -/
def Obligations.JumpOffsetAddsV0 : Prop :=
  ∀ (s : State) (nnn : BitVec 12), ∃ t, exec (.jumpOffset nnn) s = .next t ∧
    t.pc.toNat = nnn.toNat + (s.getV 0).toNat ∧ OnlyPc s t

/-! ## Load, arithmetic and logic -/

/-- R102: load-imm. -/
def Obligations.LoadImmWritesKK : Prop :=
  ∀ (s : State) (x : Reg) (kk : Byte), ∃ t, exec (.loadImm x kk) s = .next t ∧
    t.getV x = kk ∧ SameRegsBut x s t ∧ t.pc = s.pc + 2 ∧ OnlyRegsAndPc s t

/-- R103: add-imm; no flag register is touched. -/
def Obligations.AddImmWrapsWithoutFlag : Prop :=
  ∀ (s : State) (x : Reg) (kk : Byte), ∃ t, exec (.addImm x kk) s = .next t ∧
    (t.getV x).toNat = ((s.getV x).toNat + kk.toNat) % 256 ∧ SameRegsBut x s t ∧ t.pc = s.pc + 2 ∧
    OnlyRegsAndPc s t

/-- R104 to R107: assign, or, and, xor. That VF keeps its value (when it is not `x`) is decision D11 (log
entry 11). -/
def Obligations.LogicWritesVxOnly : Prop :=
  ∀ (s : State) (x y : Reg),
    (∃ t, exec (.assign x y) s = .next t ∧ t.getV x = s.getV y ∧
      SameRegsBut x s t ∧ t.pc = s.pc + 2 ∧ OnlyRegsAndPc s t) ∧
    (∃ t, exec (.orReg x y) s = .next t ∧ t.getV x = s.getV x ||| s.getV y ∧
      SameRegsBut x s t ∧ t.pc = s.pc + 2 ∧ OnlyRegsAndPc s t) ∧
    (∃ t, exec (.andReg x y) s = .next t ∧ t.getV x = s.getV x &&& s.getV y ∧
      SameRegsBut x s t ∧ t.pc = s.pc + 2 ∧ OnlyRegsAndPc s t) ∧
    (∃ t, exec (.xorReg x y) s = .next t ∧ t.getV x = s.getV x ^^^ s.getV y ∧
      SameRegsBut x s t ∧ t.pc = s.pc + 2 ∧ OnlyRegsAndPc s t)

/-- R108: add-reg. With `x = 15` VF holds the flag and the sum is lost: decision D10 (log entry 10). -/
def Obligations.AddRegSumAndCarry : Prop :=
  ∀ (s : State) (x y : Reg), ∃ t, exec (.addReg x y) s = .next t ∧
    (x ≠ 15 → (t.getV x).toNat = ((s.getV x).toNat + (s.getV y).toNat) % 256) ∧
    (t.getV 15).toNat = (if (s.getV x).toNat + (s.getV y).toNat > 255 then 1 else 0) ∧
    SameRegsButFlag x s t ∧ t.pc = s.pc + 2 ∧ OnlyRegsAndPc s t

/-- R109, R111: sub-reg and subn-reg. With `x = 15` VF holds the flag: decision D10 (log entry 10). -/
def Obligations.SubtractionsAndNoBorrow : Prop :=
  ∀ (s : State) (x y : Reg),
    (∃ t, exec (.subReg x y) s = .next t ∧
      (x ≠ 15 → ((t.getV x).toNat : Int) = (((s.getV x).toNat : Int) - (s.getV y).toNat) % 256) ∧
      (t.getV 15).toNat = (if (s.getV x).toNat ≥ (s.getV y).toNat then 1 else 0) ∧
      SameRegsButFlag x s t ∧ t.pc = s.pc + 2 ∧ OnlyRegsAndPc s t) ∧
    (∃ t, exec (.subnReg x y) s = .next t ∧
      (x ≠ 15 → ((t.getV x).toNat : Int) = (((s.getV y).toNat : Int) - (s.getV x).toNat) % 256) ∧
      (t.getV 15).toNat = (if (s.getV y).toNat ≥ (s.getV x).toNat then 1 else 0) ∧
      SameRegsButFlag x s t ∧ t.pc = s.pc + 2 ∧ OnlyRegsAndPc s t)

/-- R110, R112, R68: the shifts by one, whatever `y` is. With `x = 15` VF holds the flag: decision D10 (log
entry 10). -/
def Obligations.ShiftsByOneIgnoreY : Prop :=
  ∀ (s : State) (x y : Reg),
    (∃ t, (∀ y', exec (.shiftRight x y') s = .next t) ∧
      (x ≠ 15 → (t.getV x).toNat = (s.getV x).toNat / 2) ∧
      (t.getV 15).toNat = (s.getV x).toNat % 2 ∧
      SameRegsButFlag x s t ∧ t.pc = s.pc + 2 ∧ OnlyRegsAndPc s t) ∧
    (∃ t, (∀ y', exec (.shiftLeft x y') s = .next t) ∧
      (x ≠ 15 → (t.getV x).toNat = 2 * (s.getV x).toNat % 256) ∧
      (t.getV 15).toNat = (s.getV x).toNat / 128 ∧
      SameRegsButFlag x s t ∧ t.pc = s.pc + 2 ∧ OnlyRegsAndPc s t) ∧
    exec (.shiftRight x y) s = exec (.shiftRight x 0) s ∧ exec (.shiftLeft x y) s = exec (.shiftLeft x 0) s

/-- R113: random-and with any byte on the random port. -/
def Obligations.RandomAndMasksThePort : Prop :=
  ∀ (s : State) (x : Reg) (kk : Byte), ∃ t, exec (.randomAnd x kk) s = .next t ∧
    t.getV x = s.rnd &&& kk ∧ t.getV x &&& ~~~kk = 0 ∧ (kk = 0 → t.getV x = 0) ∧
    SameRegsBut x s t ∧ t.pc = s.pc + 2 ∧
    t.index = s.index ∧ SameStack s t ∧ SameTimers s t ∧ SameMem s t ∧ SameScreen s t ∧ t.keys = s.keys

/-! ## Index register and memory -/

/-- R120: load-index. -/
def Obligations.LoadIndexWritesNNN : Prop :=
  ∀ (s : State) (nnn : BitVec 12), ∃ t, exec (.loadIndex nnn) s = .next t ∧
    t.index.toNat = nnn.toNat ∧ t.pc = s.pc + 2 ∧ OnlyIndexAndPc s t

/-- R121: add-to-index; no fault whatever the sum, and the wrap at 16 bits, are decision D13 (log entry 13). -/
def Obligations.AddToIndexWrapsAt16Bits : Prop :=
  ∀ (s : State) (x : Reg), ∃ t, exec (.addToIndex x) s = .next t ∧
    t.index.toNat = (s.index.toNat + (s.getV x).toNat) % 65536 ∧ t.pc = s.pc + 2 ∧ OnlyIndexAndPc s t

/-- R122: font-char-address; the result is one of the 16 glyph addresses. -/
def Obligations.FontCharAddressFindsTheGlyph : Prop :=
  ∀ (s : State) (x : Reg), ∃ t, exec (.fontCharAddress x) s = .next t ∧
    t.index.toNat = 0x0050 + 5 * ((s.getV x).toNat % 16) ∧ t.index.toNat ≤ 0x009B ∧ t.pc = s.pc + 2 ∧
    OnlyIndexAndPc s t

/-- R123: store-bcd. The unchanged `I` is decision D12 (log entry 12), the check before any write and the
reported address decision D14 (log entry 14). -/
def Obligations.StoreBcdWritesThreeDigits : Prop :=
  ∀ (s : State) (x : Reg),
    (s.index.toNat + 2 ≤ 0x0FFF → ∃ t, exec (.storeBcd x) s = .next t ∧
      (t.readByte s.index.toNat).toNat = (s.getV x).toNat / 100 ∧
      (t.readByte (s.index.toNat + 1)).toNat = (s.getV x).toNat / 10 % 10 ∧
      (t.readByte (s.index.toNat + 2)).toNat = (s.getV x).toNat % 10 ∧
      SameMemOutside s.index.toNat 3 s t ∧ t.pc = s.pc + 2 ∧ OnlyMemAndPc s t) ∧
    (0x0FFF < s.index.toNat + 2 → ∃ a : Word, a.toNat = max s.index.toNat 0x1000 ∧
      exec (.storeBcd x) s = .fault (.addressOutOfRange a))

/-- R124: register-dump. The unchanged `I` is decision D12 (log entry 12), the check before any write and the
reported address decision D14 (log entry 14). -/
def Obligations.RegisterDumpStoresV0ToVx : Prop :=
  ∀ (s : State) (x : Reg),
    (s.index.toNat + x.val ≤ 0x0FFF → ∃ t, exec (.registerDump x) s = .next t ∧
      (∀ r : Reg, r ≤ x → t.readByte (s.index.toNat + r.val) = s.getV r) ∧
      SameMemOutside s.index.toNat (x.val + 1) s t ∧ t.pc = s.pc + 2 ∧ OnlyMemAndPc s t) ∧
    (0x0FFF < s.index.toNat + x.val → ∃ a : Word, a.toNat = max s.index.toNat 0x1000 ∧
      exec (.registerDump x) s = .fault (.addressOutOfRange a))

/-- R125: register-load. The unchanged `I` is decision D12 (log entry 12), the check before any write and the
reported address decision D14 (log entry 14). -/
def Obligations.RegisterLoadReadsV0ToVx : Prop :=
  ∀ (s : State) (x : Reg),
    (s.index.toNat + x.val ≤ 0x0FFF → ∃ t, exec (.registerLoad x) s = .next t ∧
      (∀ r : Reg, r ≤ x → t.getV r = s.readByte (s.index.toNat + r.val)) ∧
      (∀ r : Reg, x < r → t.getV r = s.getV r) ∧ t.pc = s.pc + 2 ∧ OnlyRegsAndPc s t) ∧
    (0x0FFF < s.index.toNat + x.val → ∃ a : Word, a.toNat = max s.index.toNat 0x1000 ∧
      exec (.registerLoad x) s = .fault (.addressOutOfRange a))

/-! ## Display -/

/-- R140: clear-screen. -/
def Obligations.ClearScreenZeroesTheFrame : Prop :=
  ∀ s : State, ∃ t, exec .clearScreen s = .next t ∧
    (∀ x y, x < 64 → y < 32 → t.pixel x y = false) ∧ SameRegs s t ∧ t.pc = s.pc + 2 ∧ OnlyScreenRegsAndPc s t

/-- R141, R142, R143: draw, pixel by pixel. A pixel flips exactly when a set bit of the sprite lands on it
inside the bounds; VF is 1 exactly when a set pixel flipped. The check of all `n` addresses is decision D14
(log entry 14), the unchanged `I` decision D12 (log entry 12). -/
def Obligations.DrawXorsTheSprite : Prop :=
  ∀ (s : State) (x y : Reg) (n : Nat), n = 0 ∨ s.index.toNat + n ≤ 0x1000 →
    ∃ t, exec (.draw x y n) s = .next t ∧
      (∀ px py, px < 64 → py < 32 → (t.pixel px py ≠ s.pixel px py ↔
        ∃ c r, c < 8 ∧ r < n ∧ px = (s.getV x).toNat % 64 + c ∧ py = (s.getV y).toNat % 32 + r ∧
          (s.readByte (s.index.toNat + r)).getLsbD (7 - c) = true)) ∧
      ((t.getV 15).toNat = 1 ∨ (t.getV 15).toNat = 0) ∧
      ((t.getV 15).toNat = 1 ↔
        ∃ px py, px < 64 ∧ py < 32 ∧ s.pixel px py = true ∧ t.pixel px py = false) ∧
      SameRegsBut 15 s t ∧ t.pc = s.pc + 2 ∧ OnlyScreenRegsAndPc s t

/-- R141: draw faults exactly when one of its `n` sprite addresses is out of range, with `n = 0` never
(decision D14, log entry 14). -/
def Obligations.DrawChecksEverySpriteAddress : Prop :=
  ∀ (s : State) (x y : Reg) (n : Nat),
    (0 < n → 0x0FFF < s.index.toNat + n - 1 → ∃ a : Word, a.toNat = max s.index.toNat 0x1000 ∧
      exec (.draw x y n) s = .fault (.addressOutOfRange a)) ∧
    (∃ t, exec (.draw x y 0) s = .next t ∧ SameScreen s t ∧ t.getV 15 = 0)

/-- R141: draw leaves the framebuffer and the flag that the two loops of the rule's pseudocode leave. -/
def Obligations.DrawMatchesThePseudocode : Prop :=
  ∀ (s t : State) (x y : Reg) (n : Nat), exec (.draw x y n) s = .next t →
    (∀ px py, px < 64 → py < 32 → t.pixel px py =
      (blitLoops s ((s.getV x).toNat % 64) ((s.getV y).toNat % 32) n).1 px py) ∧
    t.getV 15 = flagByte (blitLoops s ((s.getV x).toNat % 64) ((s.getV y).toNat % 32) n).2

/-- Vector S6 of spec/95_test_vectors.md, for every sprite and place: the same draw twice restores the
framebuffer, and the second sets VF exactly when it turned a pixel off. Since the first draw writes VF, the
coordinates are put back before the second; where neither is VF this changes nothing, and the second draw
follows at once. That the second draw meets the same sprite rests on the unchanged `I` (decision D12, log entry
12), that `n = 0` completes for every `I` on decision D14 (log entry 14). -/
def Obligations.DrawTwiceRestores : Prop :=
  ∀ (s : State) (x y : Reg) (n : Nat), n = 0 ∨ s.index.toNat + n ≤ 0x1000 →
    ∃ t u, exec (.draw x y n) s = .next t ∧
      exec (.draw x y n) ((t.setV x (s.getV x)).setV y (s.getV y)) = .next u ∧
      (x ≠ 15 → y ≠ 15 → exec (.draw x y n) t = .next u) ∧ SameScreen s u ∧
      ((u.getV 15).toNat = 1 ↔
        ∃ px py, px < 64 ∧ py < 32 ∧ t.pixel px py = true ∧ s.pixel px py = false)

/-! ## Keys and timers -/

/-- R150, R151: the key skips, by level. The mask of the key number is decision D16 (log entry 15), the
sampling at the step decision D34 (log entry 5). -/
def Obligations.KeySkipsTestTheLevel : Prop :=
  ∀ (s : State) (x : Reg) (k : Fin 16), k.val = (s.getV x).toNat % 16 →
    (∃ t, exec (.skipKeyPressed x) s = .next t ∧
      t.pc = (if s.keys[k] = true then s.pc + 2 + 2 else s.pc + 2) ∧ OnlyPc s t) ∧
    (∃ t, exec (.skipKeyNotPressed x) s = .next t ∧
      t.pc = (if s.keys[k] = false then s.pc + 2 + 2 else s.pc + 2) ∧ OnlyPc s t)

/-- R152: wait-for-key. The level reading and the least key are decision D17 (log entry 15). -/
def Obligations.WaitForKeyStoresTheLeastKey : Prop :=
  ∀ (s : State) (x : Reg),
    ((∀ k : Fin 16, s.keys[k] = false) → exec (.waitForKey x) s = .next s) ∧
    (∀ k : Fin 16, s.keys[k] = true → (∀ j : Fin 16, j < k → s.keys[j] = false) →
      ∃ t, exec (.waitForKey x) s = .next t ∧ (t.getV x).toNat = k.val ∧ SameRegsBut x s t ∧
        t.pc = s.pc + 2 ∧ OnlyRegsAndPc s t)

/-- R153: get-delay. -/
def Obligations.GetDelayReadsDT : Prop :=
  ∀ (s : State) (x : Reg), ∃ t, exec (.getDelay x) s = .next t ∧
    t.getV x = s.dt ∧ SameRegsBut x s t ∧ t.pc = s.pc + 2 ∧ OnlyRegsAndPc s t

/-- R154: set-delay, and the first tick after it. -/
def Obligations.SetDelayWritesDT : Prop :=
  ∀ (s : State) (x : Reg), ∃ t, exec (.setDelay x) s = .next t ∧
    t.dt = s.getV x ∧ t.st = s.st ∧ t.pc = s.pc + 2 ∧ OnlyTimersAndPc s t ∧
    t.tick.dt.toNat = (s.getV x).toNat - 1

/-- R155: set-sound, and the tone from the end of it. -/
def Obligations.SetSoundWritesST : Prop :=
  ∀ (s : State) (x : Reg), ∃ t, exec (.setSound x) s = .next t ∧
    t.st = s.getV x ∧ t.dt = s.dt ∧ t.pc = s.pc + 2 ∧ OnlyTimersAndPc s t ∧
    (t.tone = true ↔ s.getV x ≠ 0)

/-- R181: the tick. -/
def Obligations.TickCountsDownAndStopsAtZero : Prop :=
  ∀ s : State,
    (s.dt.toNat > 0 → s.tick.dt.toNat = s.dt.toNat - 1) ∧ (s.dt.toNat = 0 → s.tick.dt.toNat = 0) ∧
    (s.st.toNat > 0 → s.tick.st.toNat = s.st.toNat - 1) ∧ (s.st.toNat = 0 → s.tick.st.toNat = 0) ∧
    OnlyTimersAndPc s s.tick ∧ s.tick.pc = s.pc

/-- S8 of spec/95_test_vectors.md, for every value and every number of ticks: `k` ticks in a row take a timer
down by `k`, and never below 0. -/
def Obligations.TicksInARow : Prop :=
  ∀ (c : Session) (k : Nat),
    ((c.run (List.replicate k .tick)).2.machine.dt.toNat = c.machine.dt.toNat - k) ∧
    ((c.run (List.replicate k .tick)).2.machine.st.toNat = c.machine.st.toNat - k) ∧
    (c.run (List.replicate k .tick)).2.machine.pc = c.machine.pc

/-- R183, R184: the two outputs. -/
def Obligations.OutputsFollowTheState : Prop :=
  ∀ s : State, (s.tone = true ↔ s.st.toNat > 0) ∧ s.framebufferPort.length = 2048 ∧
    ∀ x y, x < 64 → y < 32 → s.framebufferPort[y * 64 + x]? = some (s.pixel x y)

/-! ## Rules over all instructions -/

/-- R8, R180: no instruction is refused, in any state, nor any step. -/
def Obligations.NoInstructionIsRefused : Prop :=
  (∀ (i : Instr) (s : State) (r : Refusal), exec i s ≠ .refused r) ∧
  (∀ (s : State) (r : Refusal), step s ≠ .refused r)

/-- R170, R174 (b) to (d), R177: which instruction faults, when, and with what, and no other does. The
addresses that are only computed never fault: decision D13 (log entry 13); the range and the reported address are
decision D14 (log entry 14). -/
def Obligations.InstructionsFaultExactlyWhen : Prop :=
  ∀ (i : Instr) (s : State) (f : Fault), exec i s = .fault f ↔
    ((∃ nnn, i = .call nnn) ∧ s.sp.val = 16 ∧ f = .stackOverflow) ∨
    (i = .ret ∧ s.sp.val = 0 ∧ f = .stackUnderflow) ∨
    (∃ a : Word, a.toNat = max s.index.toNat 0x1000 ∧ f = .addressOutOfRange a ∧
      ((∃ x y n, i = .draw x y n ∧ 0 < n ∧ 0x0FFF < s.index.toNat + n - 1) ∨
       (∃ x, i = .storeBcd x ∧ 0x0FFF < s.index.toNat + 2) ∨
       (∃ x : Reg, (i = .registerDump x ∨ i = .registerLoad x) ∧ 0x0FFF < s.index.toNat + x.val)))

/-- R172, R173: StackOverflow is raised by call at depth 16 and by nothing else, StackUnderflow by return at
depth 0 and by nothing else. -/
def Obligations.StackFaultsExactlyWhen : Prop :=
  ∀ (i : Instr) (s : State),
    (exec i s = .fault .stackOverflow ↔ (∃ nnn, i = .call nnn) ∧ s.sp.val = 16) ∧
    (exec i s = .fault .stackUnderflow ↔ i = .ret ∧ s.sp.val = 0)

/-- R47: an instruction that is neither store-bcd nor register-dump leaves every byte of memory. -/
def Obligations.OnlyStoresWriteMemory : Prop :=
  ∀ (i : Instr) (s t : State), exec i s = .next t →
    (∀ x, i ≠ .storeBcd x) → (∀ x, i ≠ .registerDump x) → t.mem = s.mem ∧ SameMem s t

/-- R20: an instruction that is neither draw nor clear-screen leaves every pixel. -/
def Obligations.OnlyDisplayWritesTheFrame : Prop :=
  ∀ (i : Instr) (s t : State), exec i s = .next t →
    (∀ x y n, i ≠ .draw x y n) → i ≠ .clearScreen → t.fb = s.fb ∧ SameScreen s t

/-- R16, R17, R18, R13: who writes the call stack, the timers and the index register. That the memory
instructions leave the index register is decision D12 (log entry 12). -/
def Obligations.WhoWritesStackTimersAndIndex : Prop :=
  ∀ (i : Instr) (s t : State), exec i s = .next t →
    ((∀ nnn, i ≠ .call nnn) → i ≠ .ret → SameStack s t) ∧
    ((∀ x, i ≠ .setDelay x) → t.dt = s.dt) ∧ ((∀ x, i ≠ .setSound x) → t.st = s.st) ∧
    ((∀ nnn, i ≠ .loadIndex nnn) → (∀ x, i ≠ .addToIndex x) → (∀ x, i ≠ .fontCharAddress x) →
      t.index = s.index)

/-- R12: the six instructions that write VF as a flag leave 0 or 1 there, always; every other leaves VF as it
was unless VF is its destination. That the logic operations do not write it is decision D11 (log entry 11),
that the flag wins at `x = 15` decision D10 (log entry 10). -/
def Obligations.WhoWritesTheFlagRegister : Prop :=
  ∀ (i : Instr) (s t : State), exec i s = .next t → FlagRule s t i

/-- R15: where the program counter stands after each instruction that completes; and R208: at a jump to its own
address no step changes anything, which is the halt convention of decision D28 (log entry 23). The unreduced
jump-offset is decision D15 (log entry 13), the masked key number decision D16 and the wait by level decision
D17 (log entry 15). -/
def Obligations.WhereThePcStands : Prop :=
  (∀ (i : Instr) (s t : State), exec i s = .next t → PcRule s t i) ∧
  (∀ s : State, s.atHalt = true ↔
    s.pc.toNat ≤ 0x0FFE ∧ ∃ nnn, decode s.fetchWord = some (.jump nnn) ∧ nnn.toNat = s.pc.toNat) ∧
  (∀ s : State, s.atHalt = true → step s = .next s)

/-- R21: the key flags are read by three instructions only, and written by none: under every other
instruction, other key flags make no other difference to what it answers. That they are sampled at
the step is decision D34 (log entry 5). -/
def Obligations.KeysReachThreeInstructionsOnly : Prop :=
  ∀ (i : Instr) (s : State) (k : Vector Bool 16),
    (∀ t, exec i s = .next t → t.keys = s.keys) ∧
    ((∀ x, i ≠ .skipKeyPressed x) → (∀ x, i ≠ .skipKeyNotPressed x) → (∀ x, i ≠ .waitForKey x) →
      (∀ t, exec i s = .next t → exec i (s.setKeys k) = .next (t.setKeys k)) ∧
      (∀ f, exec i s = .fault f → exec i (s.setKeys k) = .fault f))

/-- R22: the random byte is ignored by every instruction but random-and. That it is an input of the step is
decision D18 (log entry 4). -/
def Obligations.RndReachesRandomAndOnly : Prop :=
  ∀ (i : Instr) (s : State) (b : Byte), (∀ x kk, i ≠ .randomAnd x kk) →
    (∀ t, exec i s = .next t → exec i (s.setRnd b) = .next (t.setRnd b)) ∧
    (∀ f, exec i s = .fault f → exec i (s.setRnd b) = .fault f)

/-- Equal memories are equal data: two canonical memories that list the same byte, or none, at every address
are the same list. The model's own (log entry 3). -/
def Obligations.CanonicalMemoriesAreEqualData : Prop :=
  ∀ m m' : Memory, m.wf = true → m'.wf = true → (∀ a, m.lookup a = m'.lookup a) → m = m'

/-! ## The host's events -/

/-- R64, R152, R8: a step answers Waiting exactly when it executes wait-for-key with no key down, and then
the state is the one the inputs were presented to; a fault keeps that state too. The wait by level is decision
D17 (log entry 15), the kept state decision D9 (log entry 21), the report log entry 8. -/
def Obligations.WaitingOnlyOnKeys : Prop :=
  ∀ (c : Session) (keys : Vector Bool 16) (rnd : Byte),
    ((c.step keys rnd).1 = .waiting ↔
      (∃ x, fetchInstr (c.machine.present keys rnd) = .ok (.waitForKey x)) ∧ ∀ k : Fin 16, keys[k] = false) ∧
    ((c.step keys rnd).1 = .waiting → (c.step keys rnd).2.machine = c.machine.present keys rnd) ∧
    (∀ f, (c.step keys rnd).1 = .fault f → (c.step keys rnd).2.machine = c.machine.present keys rnd)

/-- R201: what an accepted load writes and leaves; and when it is accepted, decision D26 (log entry 18): only
directly after reset, with at most ticks between. Any other load is refused and changes nothing. -/
def Obligations.LoadWritesTheRom : Prop :=
  ∀ (c : Session) (rom : List Byte),
    (c.loadable = true → rom.length ≤ 3584 →
      (c.load rom).1 = .ok ∧
      (∀ i (h : i < rom.length), (c.load rom).2.machine.readByte (0x200 + i) = rom[i]) ∧
      SameMemOutside 0x200 rom.length c.machine (c.load rom).2.machine ∧
      OnlyMemAndPc c.machine (c.load rom).2.machine ∧ (c.load rom).2.machine.pc = c.machine.pc ∧
      (c.load rom).2.loadable = false) ∧
    (c.loadable = false → c.load rom = (.refused .loadNotAfterReset, c)) ∧
    (c.apply .reset).2.loadable = true ∧ (c.apply .tick).2.loadable = c.loadable ∧
    (∀ keys rnd, (c.step keys rnd).2.loadable = false)

/-- R175: a ROM that is too long is rejected, nothing changes, and another load may be tried. That a load
may be tried only directly after reset is decision D26 (log entry 18). -/
def Obligations.TooLongRomChangesNothing : Prop :=
  ∀ (c : Session) (rom rom' : List Byte), c.loadable = true → 3584 < rom.length →
    (c.load rom).1 = .fault (.romTooLarge rom.length) ∧ (c.load rom).2 = c ∧
    (rom'.length ≤ 3584 → ((c.load rom).2.load rom').1 = .ok)

/-- R200: reset at any time, in particular after a fault, gives the reset state in every part the spec
resets (decision D8, log entry 9), with the same value of the parameter FONT (R26, log entry 2), and a load may
follow; what the ports present is not reset (R25, log entry 20). -/
def Obligations.ResetAtAnyTime : Prop :=
  ∀ (c : Session) (es : List Event), ∃ t,
    (c.run es).2.apply .reset = (.ok, ⟨c.font, t, true⟩) ∧
    t.v = State.reset.v ∧ t.index = State.reset.index ∧ t.pc = State.reset.pc ∧ t.stack = State.reset.stack ∧
    t.sp = State.reset.sp ∧ t.dt = State.reset.dt ∧ t.st = State.reset.st ∧
    t.mem = (State.resetWith c.font).mem ∧ t.fb = State.reset.fb ∧
    t.keys = (c.run es).2.machine.keys ∧ t.rnd = (c.run es).2.machine.rnd

/-- R178: after a fault every further step reports the same fault, whatever ticks, key flags and random bytes
come, until a reset; nothing but the timers and the ports has changed; and a run that meets the fault is faulted,
whatever end it was to reach (decision D30, log entry 21; R208, decision D28, log entry 23). That a load among
the events is refused and leaves memory is decision D26 (log entry 18), that the fault itself changed nothing
decision D20 (log entry 21). -/
def Obligations.FaultPersistsUntilReset : Prop :=
  ∀ (c : Session) (keys : Vector Bool 16) (rnd : Byte) (f : Fault) (es : List Event),
    (c.step keys rnd).1 = .fault f → Event.reset ∉ es →
    (∀ r ∈ ((c.step keys rnd).2.run es).1, r = .ok ∨ r = .fault f ∨ r = .refused .loadNotAfterReset) ∧
    (∀ keys' rnd', (((c.step keys rnd).2.run es).2.step keys' rnd').1 = .fault f) ∧
    (∀ (w : EndWhen) (taken : Nat) (keys' : Vector Bool 16) (rnd' : Byte),
      (c.runUntil w taken (.step keys rnd :: es)).1 = .faulted f ∧
      ((c.step keys rnd).2.runUntil w taken (es ++ [.step keys' rnd'])).1 = .faulted f) ∧
    (let t := ((c.step keys rnd).2.run es).2.machine
     t.v = c.machine.v ∧ t.index = c.machine.index ∧ t.pc = c.machine.pc ∧ t.stack = c.machine.stack ∧
     t.sp = c.machine.sp ∧ t.mem = c.machine.mem ∧ t.fb = c.machine.fb)

/-! ## The invariant -/

/-- The invariant holds at reset, with the default font and with any other. Its clause of canonical memory is the
model's own form (log entry 3), its bound of the program counter decision D15 (log entry 13). -/
def Obligations.InvariantHoldsAtReset : Prop := State.reset.Inv ∧ ∀ font : Font, (State.resetWith font).Inv

/-- The invariant is kept by every step from every state that has it: pc is at most 0x10FE, so it never wraps
(R15; the bound of jump-offset is decision D15, log entry 13), every occupied slot holds at most 0x1000 (R80),
and memory has its canonical form, which is the model's own choice (log entry 3). -/
def Obligations.StepKeepsTheInvariant : Prop :=
  ∀ s t : State, s.Inv → Sys2Proof.Machine.step s = .next t → t.Inv

/-- R203: the invariant is kept by every sequence of the host's events. Its clause of canonical memory is the
model's own choice (log entry 3), its bound of the program counter decision D15 (log entry 13). -/
def Obligations.EventsKeepTheInvariant : Prop :=
  ∀ (c : Session) (es : List Event), c.machine.Inv → (c.run es).2.machine.Inv
end

