-- ==== Sys2Proof/Laws/Decode.lean ====
section
/-! SUPPORT. What the fields of an assembled word are, for each format (spec/30_encoding.md R61, R62), and
that a word is assembled from its fields. -/

namespace Sys2Proof

theorem getLsbD_wordNNN (c : BitVec 4) (nnn : BitVec 12) (i : Nat) :
    (wordNNN c nnn).getLsbD i = if i < 12 then nnn.getLsbD i else c.getLsbD (i - 12) := by
  unfold wordNNN
  rw [BitVec.getLsbD_append]

/-! ## Format NNN -/

@[simp] theorem fieldC_wordNNN (c : BitVec 4) (nnn : BitVec 12) : fieldC (wordNNN c nnn) = c := by
  ext i hi
  rw [fieldC, BitVec.getElem_extractLsb', getLsbD_wordNNN, if_neg (by omega), ← BitVec.getLsbD_eq_getElem]
  congr 1
  omega

@[simp] theorem fieldNNN_wordNNN (c : BitVec 4) (nnn : BitVec 12) : fieldNNN (wordNNN c nnn) = nnn := by
  ext i hi
  rw [fieldNNN, BitVec.getElem_extractLsb', getLsbD_wordNNN, if_pos (by omega), ← BitVec.getLsbD_eq_getElem]
  simp

/-- A field of the low twelve bits depends on `nnn` alone. -/
theorem fieldX_wordNNN (c : BitVec 4) (nnn : BitVec 12) :
    fieldX (wordNNN c nnn) = nnn.extractLsb' 8 4 := by
  ext i hi
  rw [fieldX, BitVec.getElem_extractLsb', getLsbD_wordNNN, if_pos (by omega), BitVec.getElem_extractLsb']

theorem fieldY_wordNNN (c : BitVec 4) (nnn : BitVec 12) :
    fieldY (wordNNN c nnn) = nnn.extractLsb' 4 4 := by
  ext i hi
  rw [fieldY, BitVec.getElem_extractLsb', getLsbD_wordNNN, if_pos (by omega), BitVec.getElem_extractLsb']

theorem fieldN_wordNNN (c : BitVec 4) (nnn : BitVec 12) :
    fieldN (wordNNN c nnn) = nnn.extractLsb' 0 4 := by
  ext i hi
  rw [fieldN, BitVec.getElem_extractLsb', getLsbD_wordNNN, if_pos (by omega), BitVec.getElem_extractLsb']

theorem fieldKK_wordNNN (c : BitVec 4) (nnn : BitVec 12) :
    fieldKK (wordNNN c nnn) = nnn.extractLsb' 0 8 := by
  ext i hi
  rw [fieldKK, BitVec.getElem_extractLsb', getLsbD_wordNNN, if_pos (by omega), BitVec.getElem_extractLsb']

/-! ## The halves of an append -/

theorem extract_high {a b : Nat} (x : BitVec a) (y : BitVec b) : (x ++ y).extractLsb' b a = x := by
  ext i hi
  rw [BitVec.getElem_extractLsb', BitVec.getLsbD_append, if_neg (by omega), ← BitVec.getLsbD_eq_getElem]
  congr 1
  omega

theorem extract_low {a b c : Nat} (x : BitVec a) (y : BitVec b) (k : Nat) (h : k + c ≤ b) :
    (x ++ y).extractLsb' k c = y.extractLsb' k c := by
  ext i hi
  rw [BitVec.getElem_extractLsb', BitVec.getLsbD_append, if_pos (by omega), BitVec.getElem_extractLsb']

theorem extract_all {a : Nat} (x : BitVec a) : x.extractLsb' 0 a = x := by
  ext i hi
  rw [BitVec.getElem_extractLsb', Nat.zero_add, BitVec.getLsbD_eq_getElem]

/-! ## Format XKK -/

@[simp] theorem fieldC_wordXKK (c : BitVec 4) (x : Reg) (kk : Byte) : fieldC (wordXKK c x kk) = c :=
  fieldC_wordNNN c _

@[simp] theorem fieldX_wordXKK (c : BitVec 4) (x : Reg) (kk : Byte) :
    fieldX (wordXKK c x kk) = BitVec.ofFin x := by
  have h := fieldX_wordNNN c ((BitVec.ofFin x : BitVec 4) ++ kk : BitVec 12)
  rw [extract_high (a := 4) (b := 8)] at h
  exact h

@[simp] theorem fieldKK_wordXKK (c : BitVec 4) (x : Reg) (kk : Byte) : fieldKK (wordXKK c x kk) = kk := by
  have h := fieldKK_wordNNN c ((BitVec.ofFin x : BitVec 4) ++ kk : BitVec 12)
  rw [extract_low (a := 4) (b := 8) _ _ 0 (by omega), extract_all] at h
  exact h

/-! ## Format XYN -/

theorem wordXYN_eq_wordXKK (c : BitVec 4) (x y : Reg) (n : BitVec 4) :
    wordXYN c x y n = wordXKK c x ((BitVec.ofFin y : BitVec 4) ++ n : BitVec 8) := rfl

@[simp] theorem fieldC_wordXYN (c : BitVec 4) (x y : Reg) (n : BitVec 4) : fieldC (wordXYN c x y n) = c :=
  fieldC_wordNNN c _

@[simp] theorem fieldX_wordXYN (c : BitVec 4) (x y : Reg) (n : BitVec 4) :
    fieldX (wordXYN c x y n) = BitVec.ofFin x := fieldX_wordXKK c x _

@[simp] theorem fieldY_wordXYN (c : BitVec 4) (x y : Reg) (n : BitVec 4) :
    fieldY (wordXYN c x y n) = BitVec.ofFin y := by
  have h := fieldY_wordNNN c ((BitVec.ofFin x : BitVec 4) ++ ((BitVec.ofFin y : BitVec 4) ++ n : BitVec 8) : BitVec 12)
  rw [extract_low (a := 4) (b := 8) _ _ 4 (by omega), extract_high (a := 4) (b := 4)] at h
  exact h

@[simp] theorem fieldN_wordXYN (c : BitVec 4) (x y : Reg) (n : BitVec 4) : fieldN (wordXYN c x y n) = n := by
  have h := fieldN_wordNNN c ((BitVec.ofFin x : BitVec 4) ++ ((BitVec.ofFin y : BitVec 4) ++ n : BitVec 8) : BitVec 12)
  rw [extract_low (a := 4) (b := 8) _ _ 0 (by omega), extract_low (a := 4) (b := 4) _ _ 0 (by omega),
    extract_all] at h
  exact h

@[simp] theorem regOf_ofFin (x : Reg) : regOf (BitVec.ofFin x) = x := rfl

/-! ## A word is its fields -/

/-- An append of two adjacent extracts is one extract. -/
theorem word_eq_wordNNN (w : Word) : wordNNN (fieldC w) (fieldNNN w) = w := by
  apply BitVec.eq_of_getLsbD_eq
  intro i hi
  rw [getLsbD_wordNNN]
  split_ifs with h
  · rw [fieldNNN, BitVec.getLsbD_extractLsb']
    simp [h]
  · rw [fieldC, BitVec.getLsbD_extractLsb', show 12 + (i - 12) = i by omega]
    simp only [Bool.and_eq_right_iff_imp, decide_eq_true_eq]
    omega

theorem append_extract {a : Nat} (w : BitVec a) (k m n : Nat) :
    (w.extractLsb' (k + n) m ++ w.extractLsb' k n : BitVec (m + n)) = w.extractLsb' k (m + n) := by
  ext i hi
  rw [← BitVec.getLsbD_eq_getElem, BitVec.getLsbD_append, BitVec.getElem_extractLsb']
  split_ifs with h
  · rw [BitVec.getLsbD_extractLsb']
    simp [h]
  · rw [BitVec.getLsbD_extractLsb', show k + n + (i - n) = k + i by omega]
    simp only [Bool.and_eq_right_iff_imp, decide_eq_true_eq]
    omega

/-- `nnn = x ++ kk` (R61). -/
theorem word_eq_wordXKK (w : Word) : wordXKK (fieldC w) (regOf (fieldX w)) (fieldKK w) = w := by
  have h : ((BitVec.ofFin (regOf (fieldX w)) : BitVec 4) ++ fieldKK w : BitVec 12) = fieldNNN w :=
    append_extract w 0 4 8
  unfold wordXKK
  rw [h]
  exact word_eq_wordNNN w

/-- `kk = y ++ n` (R61). -/
theorem word_eq_wordXYN (w : Word) :
    wordXYN (fieldC w) (regOf (fieldX w)) (regOf (fieldY w)) (fieldN w) = w := by
  have h : ((BitVec.ofFin (regOf (fieldY w)) : BitVec 4) ++ fieldN w : BitVec 8) = fieldKK w :=
    append_extract w 0 4 4
  rw [wordXYN_eq_wordXKK, h]
  exact word_eq_wordXKK w

/-- The two bytes of a word, laid out big-endian, give the word back (spec/20_memory.md R45). -/
@[simp] theorem wordOfBytes_bytes (w : Word) : wordOfBytes (highByte w) (lowByte w) = w := by
  have h : wordOfBytes (highByte w) (lowByte w) = w.extractLsb' 0 16 := append_extract w 0 8 8
  rw [h, extract_all]

/-- The decoder on the two bytes of a word is the decoder on the word. -/
theorem decodeBytes_ok_iff (w : Word) (i : Instr) :
    decodeBytes (highByte w) (lowByte w) = .ok i ↔ decode w = some i := by
  unfold decodeBytes
  rw [wordOfBytes_bytes]
  cases decode w <;> simp

end Sys2Proof
end

