-- ==== Sys2Proof/Laws/Framebuffer.lean ====
section
/-! SUPPORT. What the blit does, pixel by pixel (spec/43_display.md R142, R143). -/

namespace Sys2Proof.Machine

/-- The pixel of a sprite that a draw with origin `(ox, oy)` puts at column `x`, row `y`: bit `7 - c` of
row `r` where `x = ox + c`, `y = oy + r` (R142 (a), (c)). -/
def spritePixel (rows : List Byte) (ox oy x y : Nat) : Bool :=
  decide (ox ≤ x) && decide (oy ≤ y) && (rows.getD (y - oy) 0).getMsbD (x - ox)

theorem placeByte_getMsbD (b : Byte) (ox x : Nat) :
    (placeByte b ox).getMsbD x = (decide (ox ≤ x) && decide (x < 64) && b.getMsbD (x - ox)) := by
  unfold placeByte
  simp only [BitVec.getMsbD_ushiftRight, BitVec.getMsbD_append]
  by_cases h1 : x < ox
  · have : ¬ ox ≤ x := by omega
    simp [h1, this]
  · have h2 : ox ≤ x := by omega
    by_cases h3 : x < 64
    · by_cases h4 : x - ox < 8 <;> simp [h1, h2, h3, h4]
      exact BitVec.getMsbD_of_ge _ _ (by omega)
    · simp [h3]

theorem Frame.row_of_ge (fb : Frame) (y : Nat) (h : 32 ≤ y) : fb.row y = 0 := by
  simp [Frame.row, Nat.not_lt.mpr h]

theorem Frame.row_xorRow (fb : Frame) (y k : Nat) (bits : BitVec 64) :
    (fb.xorRow y bits).row k = if k = y ∧ y < 32 then fb.row y ^^^ bits else fb.row k := by
  unfold Frame.xorRow Frame.row
  by_cases hy : y < 32
  · by_cases hk : k < 32
    · by_cases h : k = y
      · subst h
        simp [hk]
      · simp [hy, hk, h, Ne.symm h]
    · have : k ≠ y := by omega
      simp [hy, hk, this]
  · simp [hy]

theorem Frame.row_blit (fb : Frame) (ox oy y : Nat) (rows : List Byte) :
    (fb.blit ox oy rows).row y =
      if oy ≤ y ∧ y < oy + rows.length ∧ y < 32 then fb.row y ^^^ placeByte (rows.getD (y - oy) 0) ox
      else fb.row y := by
  induction rows generalizing fb oy with
  | nil => simp [Frame.blit]; omega
  | cons b bs ih =>
    rw [Frame.blit, ih, Frame.row_xorRow]
    by_cases h : y = oy
    · subst h
      simp
    · by_cases h2 : oy ≤ y
      · have e : y - oy = (y - (oy + 1)) + 1 := by omega
        have h3 : oy + 1 ≤ y := by omega
        rw [e, List.getD_cons_succ]
        simp only [h, h2, h3, false_and, if_false, List.length_cons, true_and,
          show oy + (bs.length + 1) = oy + 1 + bs.length by omega]
      · simp [h, h2, show ¬ oy + 1 ≤ y by omega]

/-- A draw XORs the sprite's pixels into the framebuffer and changes no other (R142). -/
theorem Frame.pixel_blit (fb : Frame) (ox oy x y : Nat) (rows : List Byte) (hx : x < 64) (hy : y < 32) :
    (fb.blit ox oy rows).pixel x y = (fb.pixel x y ^^ spritePixel rows ox oy x y) := by
  unfold Frame.pixel spritePixel
  rw [Frame.row_blit]
  by_cases h1 : oy ≤ y
  · by_cases h2 : y < oy + rows.length
    · simp only [h1, h2, hy, and_self, if_true, BitVec.getMsbD_xor, placeByte_getMsbD, hx,
        decide_true, Bool.and_true]
    · have : rows.getD (y - oy) 0 = 0 := by
        rw [List.getD_eq_getElem?_getD, List.getElem?_eq_none (by omega)]; rfl
      rw [if_neg (by omega), this]
      simp
  · rw [if_neg (by omega)]
    simp [h1]

theorem Frame.pixel_clear (x y : Nat) : Frame.clear.pixel x y = false := by
  unfold Frame.pixel Frame.row Frame.clear
  split_ifs <;> simp

/-- A nonzero row has a set pixel. -/
theorem row_ne_zero_iff (r : BitVec 64) : (r != 0) = true ↔ ∃ x, x < 64 ∧ r.getMsbD x = true := by
  rw [bne_iff_ne]
  constructor
  · intro h
    by_contra hc
    apply h
    apply BitVec.eq_of_getMsbD_eq
    intro i hi
    have : ¬ r.getMsbD i = true := fun h2 => hc ⟨i, hi, h2⟩
    simpa using this
  · rintro ⟨x, -, hx⟩ rfl
    simp at hx

/-- The collision flag says that some sprite pixel meets a set pixel inside the bounds (R143). -/
theorem Frame.collides_iff (fb : Frame) (ox oy : Nat) (rows : List Byte) :
    fb.collides ox oy rows = true ↔
      ∃ x y, x < 64 ∧ y < 32 ∧ fb.pixel x y = true ∧ spritePixel rows ox oy x y = true := by
  induction rows generalizing oy with
  | nil => simp [Frame.collides, spritePixel]
  | cons b bs ih =>
    rw [Frame.collides, Bool.or_eq_true, ih, row_ne_zero_iff]
    constructor
    · rintro (⟨x, hx, h⟩ | ⟨x, y, hx, hy, h1, h2⟩)
      · by_cases hy : oy < 32
        · refine ⟨x, oy, hx, hy, ?_⟩
          simp_all [placeByte_getMsbD, Frame.pixel, spritePixel]
        · rw [Frame.row_of_ge _ _ (by omega)] at h
          simp at h
      · refine ⟨x, y, hx, hy, h1, ?_⟩
        simp only [spritePixel, Bool.and_eq_true, decide_eq_true_eq] at h2 ⊢
        obtain ⟨⟨h3, h4⟩, h5⟩ := h2
        have e : y - oy = (y - (oy + 1)) + 1 := by omega
        refine ⟨⟨h3, by omega⟩, ?_⟩
        rw [e]
        simpa using h5
    · rintro ⟨x, y, hx, hy, h1, h2⟩
      simp only [spritePixel, Bool.and_eq_true, decide_eq_true_eq] at h2
      obtain ⟨⟨h3, h4⟩, h5⟩ := h2
      by_cases h : y = oy
      · subst h
        left
        exact ⟨x, hx, by simp_all [placeByte_getMsbD, Frame.pixel]⟩
      · right
        have e : y - oy = (y - (oy + 1)) + 1 := by omega
        rw [e] at h5
        refine ⟨x, y, hx, hy, h1, ?_⟩
        simp only [spritePixel, Bool.and_eq_true, decide_eq_true_eq]
        exact ⟨⟨h3, by omega⟩, by simpa using h5⟩

end Sys2Proof.Machine
end

