-- ==== Sys2Proof/Laws/Memory.lean ====
section
/-! SUPPORT. The laws of memory: a read after a write, and that every operation keeps the canonical form. -/

namespace Sys2Proof.Machine

/-! ## Lookup -/

theorem Memory.lookup_insert (m : Memory) (a k : Nat) (b : Byte) :
    (m.insert a b).lookup k = if k = a then some b else m.lookup k := by
  induction m with
  | nil => simp [Memory.insert, Memory.lookup, eq_comm]
  | cons c m ih =>
    obtain ⟨j, d⟩ := c
    simp only [Memory.insert]
    by_cases hk : k = a
    · subst hk
      simp only [if_true] at ih ⊢
      split_ifs with h1 h2
      · simp [Memory.lookup]
      · simp [Memory.lookup]
      · simp only [Memory.lookup, if_neg (Ne.symm h2), ih]
    · simp only [hk, if_false] at ih ⊢
      split_ifs with h1 h2
      · simp [Memory.lookup, Ne.symm hk]
      · subst h2
        simp [Memory.lookup, Ne.symm hk]
      · simp only [Memory.lookup, ih]

theorem Memory.lookup_erase (m : Memory) (a k : Nat) :
    (m.erase a).lookup k = if k = a then none else m.lookup k := by
  induction m with
  | nil => simp [Memory.erase, Memory.lookup]
  | cons c m ih =>
    obtain ⟨j, d⟩ := c
    by_cases h : j = a
    · subst h
      have : Memory.erase ((j, d) :: m) j = Memory.erase m j := by simp [Memory.erase]
      rw [this, ih]
      split_ifs with h1
      · rfl
      · simp [Memory.lookup, Ne.symm h1]
    · have : Memory.erase ((j, d) :: m) a = (j, d) :: Memory.erase m a := by simp [Memory.erase, h]
      rw [this, Memory.lookup, Memory.lookup, ih]
      split_ifs <;> simp_all

/-! ## Read after write -/

theorem Memory.read_write_same (m : Memory) (a : Nat) (b : Byte) (h : a < Config.memSize) :
    (m.write a b).read a = b := by
  have h' : ¬ Config.memSize ≤ a := by omega
  by_cases hr : resetByte a = some b
  · simp [Memory.write, Memory.read, h', hr, Memory.lookup_erase, unlistedByte]
  · simp [Memory.write, Memory.read, h', hr, Memory.lookup_insert]

theorem Memory.read_write_other (m : Memory) (a k : Nat) (b : Byte) (h : k ≠ a) :
    (m.write a b).read k = m.read k := by
  unfold Memory.write
  split_ifs
  · rfl
  · simp [Memory.read, Memory.lookup_erase, h]
  · simp [Memory.read, Memory.lookup_insert, h]

/-- Every address outside the bytes written reads as before. -/
theorem Memory.read_writeBytes_outside (m : Memory) (a k : Nat) (bs : List Byte)
    (h : k < a ∨ a + bs.length ≤ k) : (m.writeBytes a bs).read k = m.read k := by
  induction bs generalizing m a with
  | nil => rfl
  | cons b bs ih =>
    simp only [List.length_cons] at h
    rw [Memory.writeBytes, ih _ _ (by omega), Memory.read_write_other _ _ _ _ (by omega)]

/-- Every address inside the bytes written reads the byte written there. -/
theorem Memory.read_writeBytes_inside (m : Memory) (a k : Nat) (bs : List Byte) (hk : k < bs.length)
    (h : a + bs.length ≤ Config.memSize) : (m.writeBytes a bs).read (a + k) = bs[k] := by
  induction bs generalizing m a k with
  | nil => simp at hk
  | cons b bs ih =>
    simp only [List.length_cons] at h hk
    cases k with
    | zero =>
      rw [Memory.writeBytes, Memory.read_writeBytes_outside _ _ _ _ (by omega)]
      simpa using Memory.read_write_same m a b (by omega)
    | succ k =>
      rw [Memory.writeBytes, show a + (k + 1) = a + 1 + k by omega, ih _ _ _ (by omega) (by omega)]
      rfl

@[simp] theorem Memory.readBytes_length (m : Memory) (a len : Nat) : (m.readBytes a len).length = len := by
  simp [Memory.readBytes]

theorem Memory.readBytes_getElem (m : Memory) (a len k : Nat) (h : k < (m.readBytes a len).length) :
    (m.readBytes a len)[k] = m.read (a + k) := by
  simp [Memory.readBytes]

/-! ## The canonical form -/

theorem Memory.wfFrom_mono {lo lo' : Nat} {m : Memory} (h : Memory.wfFrom lo m = true) (hl : lo' ≤ lo) :
    Memory.wfFrom lo' m = true := by
  cases m with
  | nil => rfl
  | cons c m =>
    obtain ⟨a, b⟩ := c
    simp only [Memory.wfFrom, Bool.and_eq_true, decide_eq_true_eq] at h ⊢
    exact ⟨⟨⟨by omega, h.1.1.2⟩, h.1.2⟩, h.2⟩

theorem Memory.wfFrom_insert (lo : Nat) (m : Memory) (a : Nat) (b : Byte) (h : Memory.wfFrom lo m = true)
    (hlo : lo ≤ a) (ha : a < Config.memSize) (hb : resetByte a ≠ some b) :
    Memory.wfFrom lo (m.insert a b) = true := by
  induction m generalizing lo with
  | nil => simp [Memory.insert, Memory.wfFrom, hlo, ha, hb]
  | cons c m ih =>
    obtain ⟨k, d⟩ := c
    simp only [Memory.wfFrom, Bool.and_eq_true, decide_eq_true_eq] at h
    obtain ⟨⟨⟨h1, h2⟩, h3⟩, h4⟩ := h
    simp only [Memory.insert]
    split_ifs with hlt heq
    · simp only [Memory.wfFrom, Bool.and_eq_true, decide_eq_true_eq]
      exact ⟨⟨⟨hlo, ha⟩, hb⟩, ⟨⟨by omega, h2⟩, h3⟩, h4⟩
    · subst heq
      simp only [Memory.wfFrom, Bool.and_eq_true, decide_eq_true_eq]
      exact ⟨⟨⟨hlo, ha⟩, hb⟩, h4⟩
    · simp only [Memory.wfFrom, Bool.and_eq_true, decide_eq_true_eq]
      exact ⟨⟨⟨h1, h2⟩, h3⟩, ih _ h4 (by omega)⟩

theorem Memory.wfFrom_erase (lo : Nat) (m : Memory) (a : Nat) (h : Memory.wfFrom lo m = true) :
    Memory.wfFrom lo (m.erase a) = true := by
  induction m generalizing lo with
  | nil => rfl
  | cons c m ih =>
    obtain ⟨k, d⟩ := c
    simp only [Memory.wfFrom, Bool.and_eq_true, decide_eq_true_eq] at h
    obtain ⟨⟨⟨h1, h2⟩, h3⟩, h4⟩ := h
    by_cases hk : k = a
    · have : Memory.erase ((k, d) :: m) a = Memory.erase m a := by simp [Memory.erase, hk]
      rw [this]
      exact Memory.wfFrom_mono (ih _ h4) (by omega)
    · have : Memory.erase ((k, d) :: m) a = (k, d) :: Memory.erase m a := by simp [Memory.erase, hk]
      rw [this]
      simp only [Memory.wfFrom, Bool.and_eq_true, decide_eq_true_eq]
      exact ⟨⟨⟨h1, h2⟩, h3⟩, ih _ h4⟩

/-- A write keeps the canonical form. -/
theorem Memory.wf_write (m : Memory) (a : Nat) (b : Byte) (h : m.wf = true) : (m.write a b).wf = true := by
  unfold Memory.write
  split_ifs with h1 h2
  · exact h
  · exact Memory.wfFrom_erase _ _ _ h
  · exact Memory.wfFrom_insert _ _ _ _ h (Nat.zero_le _) (by omega) h2

/-- A multi-byte write keeps the canonical form. -/
theorem Memory.wf_writeBytes (m : Memory) (a : Nat) (bs : List Byte) (h : m.wf = true) :
    (m.writeBytes a bs).wf = true := by
  induction bs generalizing m a with
  | nil => exact h
  | cons b bs ih => exact ih _ _ (Memory.wf_write _ _ _ h)

/-- The memory of the reset state has the canonical form. -/
theorem Memory.wf_reset : State.reset.mem.wf = true := rfl

end Sys2Proof.Machine
end

