-- ==== Sys2Proof/Laws/State.lean ====
section
/-! SUPPORT. What each update of the state does to each field: one lemma per field per update, so that no
later proof unfolds a record update. -/

namespace Sys2Proof.Machine

variable (s : State)

/-! ### setV -/

@[simp] theorem State.setV_v (x : Reg) (b : Byte) : (s.setV x b).v = s.v.set x b := rfl
@[simp] theorem State.setV_index (x : Reg) (b : Byte) : (s.setV x b).index = s.index := rfl
@[simp] theorem State.setV_pc (x : Reg) (b : Byte) : (s.setV x b).pc = s.pc := rfl
@[simp] theorem State.setV_stack (x : Reg) (b : Byte) : (s.setV x b).stack = s.stack := rfl
@[simp] theorem State.setV_sp (x : Reg) (b : Byte) : (s.setV x b).sp = s.sp := rfl
@[simp] theorem State.setV_dt (x : Reg) (b : Byte) : (s.setV x b).dt = s.dt := rfl
@[simp] theorem State.setV_st (x : Reg) (b : Byte) : (s.setV x b).st = s.st := rfl
@[simp] theorem State.setV_mem (x : Reg) (b : Byte) : (s.setV x b).mem = s.mem := rfl
@[simp] theorem State.setV_fb (x : Reg) (b : Byte) : (s.setV x b).fb = s.fb := rfl
@[simp] theorem State.setV_keys (x : Reg) (b : Byte) : (s.setV x b).keys = s.keys := rfl
@[simp] theorem State.setV_rnd (x : Reg) (b : Byte) : (s.setV x b).rnd = s.rnd := rfl
@[simp] theorem State.setV_rndCount (x : Reg) (b : Byte) : (s.setV x b).rndCount = s.rndCount := rfl

/-! ### setRegs -/

@[simp] theorem State.setRegs_v (v : Vector Byte 16) : (s.setRegs v).v = v := rfl
@[simp] theorem State.setRegs_index (v : Vector Byte 16) : (s.setRegs v).index = s.index := rfl
@[simp] theorem State.setRegs_pc (v : Vector Byte 16) : (s.setRegs v).pc = s.pc := rfl
@[simp] theorem State.setRegs_stack (v : Vector Byte 16) : (s.setRegs v).stack = s.stack := rfl
@[simp] theorem State.setRegs_sp (v : Vector Byte 16) : (s.setRegs v).sp = s.sp := rfl
@[simp] theorem State.setRegs_dt (v : Vector Byte 16) : (s.setRegs v).dt = s.dt := rfl
@[simp] theorem State.setRegs_st (v : Vector Byte 16) : (s.setRegs v).st = s.st := rfl
@[simp] theorem State.setRegs_mem (v : Vector Byte 16) : (s.setRegs v).mem = s.mem := rfl
@[simp] theorem State.setRegs_fb (v : Vector Byte 16) : (s.setRegs v).fb = s.fb := rfl
@[simp] theorem State.setRegs_keys (v : Vector Byte 16) : (s.setRegs v).keys = s.keys := rfl
@[simp] theorem State.setRegs_rnd (v : Vector Byte 16) : (s.setRegs v).rnd = s.rnd := rfl
@[simp] theorem State.setRegs_rndCount (v : Vector Byte 16) : (s.setRegs v).rndCount = s.rndCount := rfl

/-! ### setIndex -/

@[simp] theorem State.setIndex_v (w : Word) : (s.setIndex w).v = s.v := rfl
@[simp] theorem State.setIndex_index (w : Word) : (s.setIndex w).index = w := rfl
@[simp] theorem State.setIndex_pc (w : Word) : (s.setIndex w).pc = s.pc := rfl
@[simp] theorem State.setIndex_stack (w : Word) : (s.setIndex w).stack = s.stack := rfl
@[simp] theorem State.setIndex_sp (w : Word) : (s.setIndex w).sp = s.sp := rfl
@[simp] theorem State.setIndex_dt (w : Word) : (s.setIndex w).dt = s.dt := rfl
@[simp] theorem State.setIndex_st (w : Word) : (s.setIndex w).st = s.st := rfl
@[simp] theorem State.setIndex_mem (w : Word) : (s.setIndex w).mem = s.mem := rfl
@[simp] theorem State.setIndex_fb (w : Word) : (s.setIndex w).fb = s.fb := rfl
@[simp] theorem State.setIndex_keys (w : Word) : (s.setIndex w).keys = s.keys := rfl
@[simp] theorem State.setIndex_rnd (w : Word) : (s.setIndex w).rnd = s.rnd := rfl
@[simp] theorem State.setIndex_rndCount (w : Word) : (s.setIndex w).rndCount = s.rndCount := rfl

/-! ### setPc -/

@[simp] theorem State.setPc_v (w : Word) : (s.setPc w).v = s.v := rfl
@[simp] theorem State.setPc_index (w : Word) : (s.setPc w).index = s.index := rfl
@[simp] theorem State.setPc_pc (w : Word) : (s.setPc w).pc = w := rfl
@[simp] theorem State.setPc_stack (w : Word) : (s.setPc w).stack = s.stack := rfl
@[simp] theorem State.setPc_sp (w : Word) : (s.setPc w).sp = s.sp := rfl
@[simp] theorem State.setPc_dt (w : Word) : (s.setPc w).dt = s.dt := rfl
@[simp] theorem State.setPc_st (w : Word) : (s.setPc w).st = s.st := rfl
@[simp] theorem State.setPc_mem (w : Word) : (s.setPc w).mem = s.mem := rfl
@[simp] theorem State.setPc_fb (w : Word) : (s.setPc w).fb = s.fb := rfl
@[simp] theorem State.setPc_keys (w : Word) : (s.setPc w).keys = s.keys := rfl
@[simp] theorem State.setPc_rnd (w : Word) : (s.setPc w).rnd = s.rnd := rfl
@[simp] theorem State.setPc_rndCount (w : Word) : (s.setPc w).rndCount = s.rndCount := rfl

/-! ### setDt -/

@[simp] theorem State.setDt_v (b : Byte) : (s.setDt b).v = s.v := rfl
@[simp] theorem State.setDt_index (b : Byte) : (s.setDt b).index = s.index := rfl
@[simp] theorem State.setDt_pc (b : Byte) : (s.setDt b).pc = s.pc := rfl
@[simp] theorem State.setDt_stack (b : Byte) : (s.setDt b).stack = s.stack := rfl
@[simp] theorem State.setDt_sp (b : Byte) : (s.setDt b).sp = s.sp := rfl
@[simp] theorem State.setDt_dt (b : Byte) : (s.setDt b).dt = b := rfl
@[simp] theorem State.setDt_st (b : Byte) : (s.setDt b).st = s.st := rfl
@[simp] theorem State.setDt_mem (b : Byte) : (s.setDt b).mem = s.mem := rfl
@[simp] theorem State.setDt_fb (b : Byte) : (s.setDt b).fb = s.fb := rfl
@[simp] theorem State.setDt_keys (b : Byte) : (s.setDt b).keys = s.keys := rfl
@[simp] theorem State.setDt_rnd (b : Byte) : (s.setDt b).rnd = s.rnd := rfl
@[simp] theorem State.setDt_rndCount (b : Byte) : (s.setDt b).rndCount = s.rndCount := rfl

/-! ### setSt -/

@[simp] theorem State.setSt_v (b : Byte) : (s.setSt b).v = s.v := rfl
@[simp] theorem State.setSt_index (b : Byte) : (s.setSt b).index = s.index := rfl
@[simp] theorem State.setSt_pc (b : Byte) : (s.setSt b).pc = s.pc := rfl
@[simp] theorem State.setSt_stack (b : Byte) : (s.setSt b).stack = s.stack := rfl
@[simp] theorem State.setSt_sp (b : Byte) : (s.setSt b).sp = s.sp := rfl
@[simp] theorem State.setSt_dt (b : Byte) : (s.setSt b).dt = s.dt := rfl
@[simp] theorem State.setSt_st (b : Byte) : (s.setSt b).st = b := rfl
@[simp] theorem State.setSt_mem (b : Byte) : (s.setSt b).mem = s.mem := rfl
@[simp] theorem State.setSt_fb (b : Byte) : (s.setSt b).fb = s.fb := rfl
@[simp] theorem State.setSt_keys (b : Byte) : (s.setSt b).keys = s.keys := rfl
@[simp] theorem State.setSt_rnd (b : Byte) : (s.setSt b).rnd = s.rnd := rfl
@[simp] theorem State.setSt_rndCount (b : Byte) : (s.setSt b).rndCount = s.rndCount := rfl

/-! ### setMem -/

@[simp] theorem State.setMem_v (m : Memory) : (s.setMem m).v = s.v := rfl
@[simp] theorem State.setMem_index (m : Memory) : (s.setMem m).index = s.index := rfl
@[simp] theorem State.setMem_pc (m : Memory) : (s.setMem m).pc = s.pc := rfl
@[simp] theorem State.setMem_stack (m : Memory) : (s.setMem m).stack = s.stack := rfl
@[simp] theorem State.setMem_sp (m : Memory) : (s.setMem m).sp = s.sp := rfl
@[simp] theorem State.setMem_dt (m : Memory) : (s.setMem m).dt = s.dt := rfl
@[simp] theorem State.setMem_st (m : Memory) : (s.setMem m).st = s.st := rfl
@[simp] theorem State.setMem_mem (m : Memory) : (s.setMem m).mem = m := rfl
@[simp] theorem State.setMem_fb (m : Memory) : (s.setMem m).fb = s.fb := rfl
@[simp] theorem State.setMem_keys (m : Memory) : (s.setMem m).keys = s.keys := rfl
@[simp] theorem State.setMem_rnd (m : Memory) : (s.setMem m).rnd = s.rnd := rfl
@[simp] theorem State.setMem_rndCount (m : Memory) : (s.setMem m).rndCount = s.rndCount := rfl

/-! ### setFb -/

@[simp] theorem State.setFb_v (f : Frame) : (s.setFb f).v = s.v := rfl
@[simp] theorem State.setFb_index (f : Frame) : (s.setFb f).index = s.index := rfl
@[simp] theorem State.setFb_pc (f : Frame) : (s.setFb f).pc = s.pc := rfl
@[simp] theorem State.setFb_stack (f : Frame) : (s.setFb f).stack = s.stack := rfl
@[simp] theorem State.setFb_sp (f : Frame) : (s.setFb f).sp = s.sp := rfl
@[simp] theorem State.setFb_dt (f : Frame) : (s.setFb f).dt = s.dt := rfl
@[simp] theorem State.setFb_st (f : Frame) : (s.setFb f).st = s.st := rfl
@[simp] theorem State.setFb_mem (f : Frame) : (s.setFb f).mem = s.mem := rfl
@[simp] theorem State.setFb_fb (f : Frame) : (s.setFb f).fb = f := rfl
@[simp] theorem State.setFb_keys (f : Frame) : (s.setFb f).keys = s.keys := rfl
@[simp] theorem State.setFb_rnd (f : Frame) : (s.setFb f).rnd = s.rnd := rfl
@[simp] theorem State.setFb_rndCount (f : Frame) : (s.setFb f).rndCount = s.rndCount := rfl

/-! ### setKeys -/

@[simp] theorem State.setKeys_v (k : Vector Bool 16) : (s.setKeys k).v = s.v := rfl
@[simp] theorem State.setKeys_index (k : Vector Bool 16) : (s.setKeys k).index = s.index := rfl
@[simp] theorem State.setKeys_pc (k : Vector Bool 16) : (s.setKeys k).pc = s.pc := rfl
@[simp] theorem State.setKeys_stack (k : Vector Bool 16) : (s.setKeys k).stack = s.stack := rfl
@[simp] theorem State.setKeys_sp (k : Vector Bool 16) : (s.setKeys k).sp = s.sp := rfl
@[simp] theorem State.setKeys_dt (k : Vector Bool 16) : (s.setKeys k).dt = s.dt := rfl
@[simp] theorem State.setKeys_st (k : Vector Bool 16) : (s.setKeys k).st = s.st := rfl
@[simp] theorem State.setKeys_mem (k : Vector Bool 16) : (s.setKeys k).mem = s.mem := rfl
@[simp] theorem State.setKeys_fb (k : Vector Bool 16) : (s.setKeys k).fb = s.fb := rfl
@[simp] theorem State.setKeys_keys (k : Vector Bool 16) : (s.setKeys k).keys = k := rfl
@[simp] theorem State.setKeys_rnd (k : Vector Bool 16) : (s.setKeys k).rnd = s.rnd := rfl
@[simp] theorem State.setKeys_rndCount (k : Vector Bool 16) : (s.setKeys k).rndCount = s.rndCount := rfl

/-! ### setRnd -/

@[simp] theorem State.setRnd_v (b : Byte) : (s.setRnd b).v = s.v := rfl
@[simp] theorem State.setRnd_index (b : Byte) : (s.setRnd b).index = s.index := rfl
@[simp] theorem State.setRnd_pc (b : Byte) : (s.setRnd b).pc = s.pc := rfl
@[simp] theorem State.setRnd_stack (b : Byte) : (s.setRnd b).stack = s.stack := rfl
@[simp] theorem State.setRnd_sp (b : Byte) : (s.setRnd b).sp = s.sp := rfl
@[simp] theorem State.setRnd_dt (b : Byte) : (s.setRnd b).dt = s.dt := rfl
@[simp] theorem State.setRnd_st (b : Byte) : (s.setRnd b).st = s.st := rfl
@[simp] theorem State.setRnd_mem (b : Byte) : (s.setRnd b).mem = s.mem := rfl
@[simp] theorem State.setRnd_fb (b : Byte) : (s.setRnd b).fb = s.fb := rfl
@[simp] theorem State.setRnd_keys (b : Byte) : (s.setRnd b).keys = s.keys := rfl
@[simp] theorem State.setRnd_rnd (b : Byte) : (s.setRnd b).rnd = b := rfl
@[simp] theorem State.setRnd_rndCount (b : Byte) : (s.setRnd b).rndCount = s.rndCount := rfl

/-! ### nextRnd -/

@[simp] theorem State.nextRnd_v : s.nextRnd.v = s.v := rfl
@[simp] theorem State.nextRnd_index : s.nextRnd.index = s.index := rfl
@[simp] theorem State.nextRnd_pc : s.nextRnd.pc = s.pc := rfl
@[simp] theorem State.nextRnd_stack : s.nextRnd.stack = s.stack := rfl
@[simp] theorem State.nextRnd_sp : s.nextRnd.sp = s.sp := rfl
@[simp] theorem State.nextRnd_dt : s.nextRnd.dt = s.dt := rfl
@[simp] theorem State.nextRnd_st : s.nextRnd.st = s.st := rfl
@[simp] theorem State.nextRnd_mem : s.nextRnd.mem = s.mem := rfl
@[simp] theorem State.nextRnd_fb : s.nextRnd.fb = s.fb := rfl
@[simp] theorem State.nextRnd_keys : s.nextRnd.keys = s.keys := rfl
@[simp] theorem State.nextRnd_rnd : s.nextRnd.rnd = Config.randomByte s.rndCount := rfl
@[simp] theorem State.nextRnd_rndCount : s.nextRnd.rndCount = s.rndCount + 1 := rfl

/-! ### tick -/

@[simp] theorem State.tick_v : s.tick.v = s.v := rfl
@[simp] theorem State.tick_index : s.tick.index = s.index := rfl
@[simp] theorem State.tick_pc : s.tick.pc = s.pc := rfl
@[simp] theorem State.tick_stack : s.tick.stack = s.stack := rfl
@[simp] theorem State.tick_sp : s.tick.sp = s.sp := rfl
@[simp] theorem State.tick_dt : s.tick.dt = countDown s.dt := rfl
@[simp] theorem State.tick_st : s.tick.st = countDown s.st := rfl
@[simp] theorem State.tick_mem : s.tick.mem = s.mem := rfl
@[simp] theorem State.tick_fb : s.tick.fb = s.fb := rfl
@[simp] theorem State.tick_keys : s.tick.keys = s.keys := rfl
@[simp] theorem State.tick_rnd : s.tick.rnd = s.rnd := rfl
@[simp] theorem State.tick_rndCount : s.tick.rndCount = s.rndCount := rfl

/-! ### Reading a register after an update -/

theorem State.getV_setV (x r : Reg) (b : Byte) : (s.setV x b).getV r = if r = x then b else s.getV r := by
  simp only [State.getV, State.setV, Fin.getElem_fin, Vector.getElem_set, Fin.ext_iff, eq_comm]

@[simp] theorem State.getV_setV_same (x : Reg) (b : Byte) : (s.setV x b).getV x = b := by
  rw [State.getV_setV, if_pos rfl]

theorem State.getV_setV_other (x r : Reg) (b : Byte) (h : r ≠ x) : (s.setV x b).getV r = s.getV r := by
  rw [State.getV_setV, if_neg h]

@[simp] theorem State.getV_setIndex (w : Word) (r : Reg) : (s.setIndex w).getV r = s.getV r := rfl
@[simp] theorem State.getV_setPc (w : Word) (r : Reg) : (s.setPc w).getV r = s.getV r := rfl
@[simp] theorem State.getV_setDt (b : Byte) (r : Reg) : (s.setDt b).getV r = s.getV r := rfl
@[simp] theorem State.getV_setSt (b : Byte) (r : Reg) : (s.setSt b).getV r = s.getV r := rfl
@[simp] theorem State.getV_setMem (m : Memory) (r : Reg) : (s.setMem m).getV r = s.getV r := rfl
@[simp] theorem State.getV_setFb (f : Frame) (r : Reg) : (s.setFb f).getV r = s.getV r := rfl
@[simp] theorem State.getV_setKeys (k : Vector Bool 16) (r : Reg) : (s.setKeys k).getV r = s.getV r := rfl
@[simp] theorem State.getV_setRnd (b : Byte) (r : Reg) : (s.setRnd b).getV r = s.getV r := rfl
@[simp] theorem State.getV_nextRnd (r : Reg) : s.nextRnd.getV r = s.getV r := rfl
@[simp] theorem State.getV_tick (r : Reg) : s.tick.getV r = s.getV r := rfl

/-- The flag register holds the flag, whichever register the result goes to (R101). -/
@[simp] theorem State.getV_setVFlag_flag (x : Reg) (b : Byte) (c : Bool) :
    (s.setVFlag x b c).getV flagReg = flagByte c := State.getV_setV_same _ _ _

/-- The result stays where it is not the flag register. -/
theorem State.getV_setVFlag_result (x : Reg) (b : Byte) (c : Bool) (h : x ≠ flagReg) :
    (s.setVFlag x b c).getV x = b := by
  rw [State.setVFlag, State.getV_setV_other _ _ _ _ h, State.getV_setV_same]

/-- Every other register keeps its value. -/
theorem State.getV_setVFlag_other (x r : Reg) (b : Byte) (c : Bool) (h : r ≠ x) (hf : r ≠ flagReg) :
    (s.setVFlag x b c).getV r = s.getV r := by
  rw [State.setVFlag, State.getV_setV_other _ _ _ _ hf, State.getV_setV_other _ _ _ _ h]

/-! ### setVFlag -/

@[simp] theorem State.setVFlag_index (x : Reg) (b : Byte) (c : Bool) : (s.setVFlag x b c).index = s.index := rfl
@[simp] theorem State.setVFlag_pc (x : Reg) (b : Byte) (c : Bool) : (s.setVFlag x b c).pc = s.pc := rfl
@[simp] theorem State.setVFlag_stack (x : Reg) (b : Byte) (c : Bool) : (s.setVFlag x b c).stack = s.stack := rfl
@[simp] theorem State.setVFlag_sp (x : Reg) (b : Byte) (c : Bool) : (s.setVFlag x b c).sp = s.sp := rfl
@[simp] theorem State.setVFlag_dt (x : Reg) (b : Byte) (c : Bool) : (s.setVFlag x b c).dt = s.dt := rfl
@[simp] theorem State.setVFlag_st (x : Reg) (b : Byte) (c : Bool) : (s.setVFlag x b c).st = s.st := rfl
@[simp] theorem State.setVFlag_mem (x : Reg) (b : Byte) (c : Bool) : (s.setVFlag x b c).mem = s.mem := rfl
@[simp] theorem State.setVFlag_fb (x : Reg) (b : Byte) (c : Bool) : (s.setVFlag x b c).fb = s.fb := rfl
@[simp] theorem State.setVFlag_keys (x : Reg) (b : Byte) (c : Bool) : (s.setVFlag x b c).keys = s.keys := rfl
@[simp] theorem State.setVFlag_rnd (x : Reg) (b : Byte) (c : Bool) : (s.setVFlag x b c).rnd = s.rnd := rfl
@[simp] theorem State.setVFlag_rndCount (x : Reg) (b : Byte) (c : Bool) : (s.setVFlag x b c).rndCount = s.rndCount := rfl

/-! ### Reading memory and pixels after an update -/

@[simp] theorem State.readByte_setV (x : Reg) (b : Byte) (a : Nat) : (s.setV x b).readByte a = s.readByte a := rfl
@[simp] theorem State.pixel_setV (r : Reg) (b : Byte) (x y : Nat) : (s.setV r b).pixel x y = s.pixel x y := rfl
@[simp] theorem State.readByte_setRegs (v : Vector Byte 16) (a : Nat) : (s.setRegs v).readByte a = s.readByte a := rfl
@[simp] theorem State.pixel_setRegs (v : Vector Byte 16) (x y : Nat) : (s.setRegs v).pixel x y = s.pixel x y := rfl
@[simp] theorem State.readByte_setIndex (w : Word) (a : Nat) : (s.setIndex w).readByte a = s.readByte a := rfl
@[simp] theorem State.pixel_setIndex (w : Word) (x y : Nat) : (s.setIndex w).pixel x y = s.pixel x y := rfl
@[simp] theorem State.readByte_setPc (w : Word) (a : Nat) : (s.setPc w).readByte a = s.readByte a := rfl
@[simp] theorem State.pixel_setPc (w : Word) (x y : Nat) : (s.setPc w).pixel x y = s.pixel x y := rfl
@[simp] theorem State.readByte_setDt (b : Byte) (a : Nat) : (s.setDt b).readByte a = s.readByte a := rfl
@[simp] theorem State.pixel_setDt (b : Byte) (x y : Nat) : (s.setDt b).pixel x y = s.pixel x y := rfl
@[simp] theorem State.readByte_setSt (b : Byte) (a : Nat) : (s.setSt b).readByte a = s.readByte a := rfl
@[simp] theorem State.pixel_setSt (b : Byte) (x y : Nat) : (s.setSt b).pixel x y = s.pixel x y := rfl
@[simp] theorem State.readByte_setMem (m : Memory) (a : Nat) : (s.setMem m).readByte a = m.read a := rfl
@[simp] theorem State.pixel_setMem (m : Memory) (x y : Nat) : (s.setMem m).pixel x y = s.pixel x y := rfl
@[simp] theorem State.readByte_setFb (f : Frame) (a : Nat) : (s.setFb f).readByte a = s.readByte a := rfl
@[simp] theorem State.pixel_setFb (f : Frame) (x y : Nat) : (s.setFb f).pixel x y = f.pixel x y := rfl
@[simp] theorem State.readByte_setKeys (k : Vector Bool 16) (a : Nat) : (s.setKeys k).readByte a = s.readByte a := rfl
@[simp] theorem State.pixel_setKeys (k : Vector Bool 16) (x y : Nat) : (s.setKeys k).pixel x y = s.pixel x y := rfl
@[simp] theorem State.readByte_setRnd (b : Byte) (a : Nat) : (s.setRnd b).readByte a = s.readByte a := rfl
@[simp] theorem State.pixel_setRnd (b : Byte) (x y : Nat) : (s.setRnd b).pixel x y = s.pixel x y := rfl
@[simp] theorem State.readByte_nextRnd (a : Nat) : s.nextRnd.readByte a = s.readByte a := rfl
@[simp] theorem State.pixel_nextRnd (x y : Nat) : s.nextRnd.pixel x y = s.pixel x y := rfl
@[simp] theorem State.readByte_tick (a : Nat) : s.tick.readByte a = s.readByte a := rfl
@[simp] theorem State.pixel_tick (x y : Nat) : s.tick.pixel x y = s.pixel x y := rfl
@[simp] theorem State.readByte_setVFlag (x : Reg) (b : Byte) (c : Bool) (a : Nat) :
    (s.setVFlag x b c).readByte a = s.readByte a := rfl
@[simp] theorem State.pixel_setVFlag (r : Reg) (b : Byte) (c : Bool) (x y : Nat) :
    (s.setVFlag r b c).pixel x y = s.pixel x y := rfl
@[simp] theorem State.npc_def : s.npc = s.pc + 2 := rfl

end Sys2Proof.Machine
end

