-- ==== Sys2Proof/Laws/Ops.lean ====
section
/-! SUPPORT. Each shared operation, once: everything it can do. -/

namespace Sys2Proof.Machine

/-! ## How an instruction ends -/

@[simp] theorem complete_eq (s : State) : complete s = .next (s.setPc s.npc) := rfl
@[simp] theorem completeAt_eq (s : State) (w : Word) : completeAt s w = .next (s.setPc w) := rfl
@[simp] theorem suspend_eq (s : State) : suspend s = .next s := rfl
@[simp] theorem raise_eq (f : Fault) : raise f = .fault f := rfl
@[simp] theorem skipIf_eq (c : Bool) (s : State) :
    skipIf c s = .next (s.setPc (if c then s.npc + 2 else s.npc)) := rfl

/-! ## The range check (spec/20_memory.md R44) -/

theorem inRange_iff (base : Word) (len : Nat) :
    inRange base len = true ↔ len = 0 ∨ base.toNat + len ≤ 0x1000 := by simp [inRange, Config.memSize]

theorem withRange_in {base : Word} {len : Nat} (k : Answer) (h : inRange base len = true) :
    withRange base len k = k := by simp [withRange, h]

theorem withRange_out {base : Word} {len : Nat} (k : Answer) (h : inRange base len = false) :
    withRange base len k = .fault (.addressOutOfRange (offendingAddress base)) := by simp [withRange, h]

/-- If a range-checked operation answers next, the range was good and the operation answered it. -/
theorem withRange_next {base : Word} {len : Nat} {k : Answer} {t : State}
    (h : withRange base len k = .next t) : inRange base len = true ∧ k = .next t := by
  cases hr : inRange base len
  · rw [withRange_out _ hr] at h; cases h
  · rw [withRange_in _ hr] at h; exact ⟨rfl, h⟩

/-- The reported address is `max(base, 0x1000)`. -/
theorem offendingAddress_toNat (base : Word) : (offendingAddress base).toNat = max base.toNat 0x1000 := by
  unfold offendingAddress
  have hm : Config.memSize = 0x1000 := rfl
  split_ifs with h
  · rw [hm] at h
    have : (0x1000 : Word).toNat = 0x1000 := rfl
    omega
  · omega

/-! ## The call stack (spec/10_state.md R16) -/

/-- A push answers none exactly at depth 16; else it writes the slot of the old depth and adds one. -/
theorem State.push_cases (s : State) (a : Word) :
    (s.sp.val = 16 ∧ s.push a = none) ∨
    ∃ t, s.push a = some t ∧ s.sp.val < 16 ∧ t.sp.val = s.sp.val + 1 ∧
      (∀ k : Fin 16, t.stack[k] = if k.val = s.sp.val then a else s.stack[k]) ∧
      t.v = s.v ∧ t.index = s.index ∧ t.pc = s.pc ∧ t.dt = s.dt ∧ t.st = s.st ∧ t.mem = s.mem ∧
      t.fb = s.fb ∧ t.keys = s.keys ∧ t.rnd = s.rnd ∧ t.rndCount = s.rndCount := by
  unfold State.push
  by_cases h : s.sp.val < 16
  · right
    refine ⟨_, dif_pos h, h, rfl, fun k => ?_, rfl, rfl, rfl, rfl, rfl, rfl, rfl, rfl, rfl, rfl⟩
    simp [Vector.getElem_set, eq_comm]
  · left
    exact ⟨by omega, dif_neg h⟩

/-- A pop answers none exactly at depth 0; else it answers the slot on top and takes one off the depth. -/
theorem State.pop_cases (s : State) :
    (s.sp.val = 0 ∧ s.pop = none) ∨
    ∃ a t, s.pop = some (a, t) ∧ 0 < s.sp.val ∧ t.sp.val = s.sp.val - 1 ∧
      (∀ k : Fin 16, k.val + 1 = s.sp.val → a = s.stack[k]) ∧ t.stack = s.stack ∧
      t.v = s.v ∧ t.index = s.index ∧ t.pc = s.pc ∧ t.dt = s.dt ∧ t.st = s.st ∧ t.mem = s.mem ∧
      t.fb = s.fb ∧ t.keys = s.keys ∧ t.rnd = s.rnd ∧ t.rndCount = s.rndCount := by
  unfold State.pop
  by_cases h : 0 < s.sp.val
  · right
    refine ⟨_, _, if_pos h, h, rfl, fun k hk => ?_, rfl, rfl, rfl, rfl, rfl, rfl, rfl, rfl, rfl, rfl, rfl⟩
    simp [← hk]
  · left
    exact ⟨by omega, if_neg h⟩

/-! The stack does not look at the ports. -/

theorem State.push_setKeys (s : State) (k : Vector Bool 16) (a : Word) :
    (s.setKeys k).push a = (s.push a).map fun t => t.setKeys k := by
  by_cases h : s.sp.val < 16 <;> simp [State.push, State.setKeys, h]

theorem State.push_setRnd (s : State) (b : Byte) (a : Word) :
    (s.setRnd b).push a = (s.push a).map fun t => t.setRnd b := by
  by_cases h : s.sp.val < 16 <;> simp [State.push, State.setRnd, h]

theorem State.pop_setKeys (s : State) (k : Vector Bool 16) :
    (s.setKeys k).pop = s.pop.map fun p => (p.1, p.2.setKeys k) := by
  unfold State.pop
  by_cases h : 0 < s.sp.val
  · rw [if_pos h, if_pos (show 0 < (s.setKeys k).sp.val from h)]; rfl
  · rw [if_neg h, if_neg (show ¬ 0 < (s.setKeys k).sp.val from h)]; rfl

theorem State.pop_setRnd (s : State) (b : Byte) :
    (s.setRnd b).pop = s.pop.map fun p => (p.1, p.2.setRnd b) := by
  unfold State.pop
  by_cases h : 0 < s.sp.val
  · rw [if_pos h, if_pos (show 0 < (s.setRnd b).sp.val from h)]; rfl
  · rw [if_neg h, if_neg (show ¬ 0 < (s.setRnd b).sp.val from h)]; rfl

/-! ## Fetching (spec/30_encoding.md R64) -/

/-- A fetch answers an instruction exactly when both bytes are in range and the word decodes to it. -/
theorem fetchInstr_ok_iff (s : State) (i : Instr) :
    fetchInstr s = .ok i ↔ s.pc.toNat ≤ 0x0FFE ∧ decode s.fetchWord = some i := by
  unfold fetchInstr decodeBytes
  by_cases h : inRange s.pc 2 = true
  · have hp : s.pc.toNat ≤ 0x0FFE := by
      rw [inRange_iff] at h; omega
    change _ ↔ _ ∧ decode (wordOfBytes _ _) = _
    cases hd : decode (wordOfBytes (s.readByte s.pc.toNat) (s.readByte (s.pc.toNat + 1))) <;>
      simp [h, hp]
  · have hp : ¬ s.pc.toNat ≤ 0x0FFE := by
      rw [inRange_iff] at h; omega
    simp [h, hp]

/-- A fetch answers a fault for one of two reasons, in this order. -/
theorem fetchInstr_error_iff (s : State) (f : Fault) :
    fetchInstr s = .error f ↔
      (0x0FFE < s.pc.toNat ∧ f = .addressOutOfRange (offendingAddress s.pc)) ∨
      (s.pc.toNat ≤ 0x0FFE ∧ decode s.fetchWord = none ∧ f = .unknownOpcode s.fetchWord) := by
  unfold fetchInstr decodeBytes
  by_cases h : inRange s.pc 2 = true
  · have hp : s.pc.toNat ≤ 0x0FFE := by
      rw [inRange_iff] at h; omega
    change _ ↔ _ ∨ (_ ∧ decode (wordOfBytes _ _) = _ ∧ f = .unknownOpcode (wordOfBytes _ _))
    cases hd : decode (wordOfBytes (s.readByte s.pc.toNat) (s.readByte (s.pc.toNat + 1))) <;>
      simp [h, hp, eq_comm]
  · have hp : ¬ s.pc.toNat ≤ 0x0FFE := by
      rw [inRange_iff] at h; omega
    have hq : 0x0FFE < s.pc.toNat := by omega
    simp [h, hp, hq, eq_comm]

/-- A step answers a state exactly when it fetches an instruction and that instruction answers it. -/
theorem step_next_iff (s t : State) :
    step s = .next t ↔ ∃ i, fetchInstr s = .ok i ∧ exec i s = .next t := by
  unfold step
  cases h : fetchInstr s <;> simp

/-! ## Operands -/

/-- The key an instruction names is the low nibble of the register (spec/44_keys_and_timers.md R150). -/
theorem State.keyOperand_val (s : State) (x : Reg) : (s.keyOperand x).val = (s.getV x).toNat % 16 := by
  simp [State.keyOperand]

/-- The first key down is down, and no smaller one is (R152). -/
theorem State.firstKey_some (s : State) (k : Fin 16) :
    s.firstKey = some k ↔ s.keyDown k = true ∧ ∀ j < k, s.keyDown j = false := by
  have hgen : ∀ p : Fin 16 → Bool, keyNumbers.find? p = some k ↔ p k = true ∧ ∀ j < k, p j = false := by
    intro p
    have hk : keyNumbers = List.finRange 16 := by decide
    rw [hk, List.find?_eq_some_iff_getElem]
    constructor
    · rintro ⟨h1, i, hi, rfl, h2⟩
      refine ⟨h1, fun j hj => ?_⟩
      have := h2 j.val (by simpa [Fin.lt_def] using hj)
      simpa using this
    · rintro ⟨h1, h2⟩
      refine ⟨h1, k.val, by simp, by simp, fun j hj => ?_⟩
      simpa using h2 ⟨j, by omega⟩ (by simpa [Fin.lt_def] using hj)
  exact hgen _

/-- No first key: none is down. -/
theorem State.firstKey_none (s : State) : s.firstKey = none ↔ ∀ k, s.keyDown k = false := by
  have hk : keyNumbers = List.finRange 16 := by decide
  simp [State.firstKey, hk]

/-- The digits of an 8-bit value are its hundreds, tens and ones (spec/42_index_and_memory.md R123). -/
theorem bcdDigits_length (v : Byte) : (bcdDigits v).length = 3 := rfl

@[simp] theorem State.regsUpTo_length (s : State) (x : Reg) : (s.regsUpTo x).length = x.val + 1 := by
  simp [State.regsUpTo]

theorem State.regsUpTo_getElem (s : State) (x : Reg) (k : Nat) (h : k < (s.regsUpTo x).length) :
    (s.regsUpTo x)[k] = s.getV ⟨k, by simp at h; omega⟩ := by
  simp [State.regsUpTo, State.getV]

theorem State.getV_setRegs_loadedRegs (s : State) (x r : Reg) :
    (s.setRegs (s.loadedRegs x)).getV r =
      if r ≤ x then s.readByte (s.index.toNat + r.val) else s.getV r := by
  simp [State.getV, State.setRegs, State.loadedRegs]

end Sys2Proof.Machine
end

