-- ==== Sys2Proof/Laws/Events.lean ====
section
/-! SUPPORT. What each event of the host can do, the reset state for a font, and the end of a run. -/

namespace Sys2Proof.Machine

/-! ## Reset with a font (spec/20_memory.md R42) -/

theorem resetByte_font (i : Nat) (h : i < 80) : resetByte (0x050 + i) = some (fontByte i) := by
  have : 0x050 ≤ 0x050 + i ∧ 0x050 + i < 0x050 + 80 := by omega
  simp [resetByte, this]

theorem resetByte_outside (a : Nat) (h : a < 0x050 ∨ 0x0A0 ≤ a) : resetByte a = none := by
  have : ¬ (0x050 ≤ a ∧ a < 0x050 + 80) := by omega
  simp only [resetByte, if_neg this]

theorem Font.toList_length (font : Font) : font.toList.length = 80 := Vector.length_toList

theorem State.readByte_resetWith_font (font : Font) (i : Nat) (h : i < 80) :
    (State.resetWith font).readByte (0x050 + i) = font[i] := by
  have := Memory.read_writeBytes_inside State.reset.mem 0x050 i font.toList (by simpa using h) 
    (by simp [Config.memSize, Config.fontSize])
  simpa [State.readByte, State.resetWith] using this

theorem State.readByte_resetWith_outside (font : Font) (a : Nat) (h : a < 0x050 ∨ 0x0A0 ≤ a) :
    (State.resetWith font).readByte a = Config.memInit a := by
  have e : (State.resetWith font).readByte a = State.reset.mem.read a :=
    Memory.read_writeBytes_outside _ _ _ _ (by rw [Font.toList_length]; exact h)
  rw [e]
  simp [Memory.read, Memory.lookup, State.reset, unlistedByte, resetByte_outside a h]

theorem State.wf_resetWith (font : Font) : (State.resetWith font).mem.wf = true :=
  Memory.wf_writeBytes _ _ _ Memory.wf_reset

/-! ## The step event -/

/-- Everything a step event can do: it is a step from the state with the inputs presented. -/
theorem Session.step_cases (c : Session) (keys : Vector Bool 16) (rnd : Byte) :
    (∃ t, Sys2Proof.Machine.step (c.machine.present keys rnd) = .next t ∧
      c.step keys rnd = (if (c.machine.present keys rnd).waits then .waiting else .done, ⟨c.font, t, false⟩)) ∨
    (∃ f, Sys2Proof.Machine.step (c.machine.present keys rnd) = .fault f ∧
      c.step keys rnd = (.fault f, ⟨c.font, c.machine.present keys rnd, false⟩)) ∨
    (∃ r, Sys2Proof.Machine.step (c.machine.present keys rnd) = .refused r ∧
      c.step keys rnd = (.refused r, ⟨c.font, c.machine.present keys rnd, false⟩)) := by
  unfold Session.step
  cases h : Sys2Proof.Machine.step (c.machine.present keys rnd) with
  | next t => exact .inl ⟨t, rfl, by simp only [h]⟩
  | fault f => exact .inr (.inl ⟨f, rfl, by simp only [h]⟩)
  | refused r => exact .inr (.inr ⟨r, rfl, by simp only [h]⟩)

/-- Everything a load event can do. -/
theorem Session.load_cases (c : Session) (rom : List Byte) :
    (c.loadable = false ∧ c.load rom = (.refused .loadNotAfterReset, c)) ∨
    (c.loadable = true ∧ 3584 < rom.length ∧ c.load rom = (.fault (.romTooLarge rom.length), c)) ∨
    (c.loadable = true ∧ rom.length ≤ 3584 ∧ c.load rom = (.ok, ⟨c.font, c.machine.loadRom rom, false⟩)) := by
  unfold Session.load
  cases c.loadable
  · exact .inl ⟨rfl, rfl⟩
  · by_cases h : rom.length > 3584
    · exact .inr (.inl ⟨rfl, h, by simp [h]⟩)
    · exact .inr (.inr ⟨rfl, by omega, by simp [h]⟩)

/-- No event changes the parameter FONT (spec/10_state.md R26). -/
theorem Session.apply_font (c : Session) (e : Event) : (c.apply e).2.font = c.font := by
  cases e with
  | reset => rfl
  | tick => rfl
  | load rom => rcases c.load_cases rom with ⟨_, h⟩ | ⟨_, _, h⟩ | ⟨_, _, h⟩ <;> simp only [Session.apply, h]
  | step keys rnd =>
    rcases c.step_cases keys rnd with ⟨_, _, h⟩ | ⟨_, _, h⟩ | ⟨_, _, h⟩ <;> simp only [Session.apply, h]

/-! ## The end of a run (spec/70_reset_and_hazards.md R208) -/

theorem State.atHalt_cases (s : State) :
    s.atHalt = true ↔ ∃ nnn, fetchInstr s = .ok (.jump nnn) ∧ addressOperand nnn = s.pc := by
  unfold State.atHalt
  split
  · rename_i nnn h
    simp [h]
  · rename_i h
    simp only [Bool.false_eq_true, false_iff, not_exists, not_and]
    exact fun nnn hn => absurd hn (h nnn)

end Sys2Proof.Machine
end

