-- ==== Sys2Proof/Laws/Frames.lean ====
section
/-! SUPPORT. The frame of each update followed by a write of the program counter, which is how every
instruction that completes ends. -/

namespace Sys2Proof.Machine

variable (s : State) (w : Word)

theorem onlyPc_setPc : OnlyPc s (s.setPc w) :=
  ⟨fun _ => rfl, rfl, ⟨rfl, fun _ => rfl⟩, ⟨rfl, rfl⟩, fun _ => rfl, fun _ _ _ _ => rfl, rfl, rfl, rfl⟩

theorem onlyRegsAndPc_setRegs (v : Vector Byte 16) : OnlyRegsAndPc s ((s.setRegs v).setPc w) :=
  ⟨rfl, ⟨rfl, fun _ => rfl⟩, ⟨rfl, rfl⟩, fun _ => rfl, fun _ _ _ _ => rfl, rfl, rfl, rfl⟩

theorem onlyRegsAndPc_setV (x : Reg) (b : Byte) : OnlyRegsAndPc s ((s.setV x b).setPc w) :=
  onlyRegsAndPc_setRegs s w _

theorem onlyRegsAndPc_setVFlag (x : Reg) (b : Byte) (c : Bool) :
    OnlyRegsAndPc s ((s.setVFlag x b c).setPc w) := onlyRegsAndPc_setRegs s w _

theorem onlyIndexAndPc_setIndex (i : Word) : OnlyIndexAndPc s ((s.setIndex i).setPc w) :=
  ⟨fun _ => rfl, ⟨rfl, fun _ => rfl⟩, ⟨rfl, rfl⟩, fun _ => rfl, fun _ _ _ _ => rfl, rfl, rfl, rfl⟩

theorem onlyMemAndPc_setMem (m : Memory) : OnlyMemAndPc s ((s.setMem m).setPc w) :=
  ⟨fun _ => rfl, rfl, ⟨rfl, fun _ => rfl⟩, ⟨rfl, rfl⟩, fun _ _ _ _ => rfl, rfl, rfl, rfl⟩

theorem onlyScreenRegsAndPc_setFb_setV (fb : Frame) (x : Reg) (b : Byte) :
    OnlyScreenRegsAndPc s (((s.setFb fb).setV x b).setPc w) :=
  ⟨rfl, ⟨rfl, fun _ => rfl⟩, ⟨rfl, rfl⟩, fun _ => rfl, rfl, rfl, rfl⟩

theorem sameRegsBut_setV (x : Reg) (b : Byte) : SameRegsBut x s ((s.setV x b).setPc w) := fun r h => by
  simpa using State.getV_setV_other s x r b h

theorem sameRegsButFlag_setVFlag (x : Reg) (b : Byte) (c : Bool) :
    SameRegsButFlag x s ((s.setVFlag x b c).setPc w) := fun r h hf => by
  simpa using State.getV_setVFlag_other s x r b c h hf

end Sys2Proof.Machine
end

