-- ==== Sys2Proof/Laws/PerInstr.lean ====
section
/-! SUPPORT. Statements about every instruction as syntax, one lemma per constructor. -/

namespace Sys2Proof.Laws

/-! ## Keeping the fixed bits of a word (spec/30_encoding.md R65) -/

theorem wordNNN_mask (c : BitVec 4) (nnn : BitVec 12) : wordNNN c nnn &&& 0xF000#16 = wordNNN c 0 := by
  have h : (0xF000#16 : Word) = 0xF#4 ++ 0#12 := rfl
  unfold wordNNN
  rw [h, BitVec.and_append]
  congr 1
  · exact BitVec.and_allOnes
  · exact BitVec.and_zero

theorem wordXKK_mask (c : BitVec 4) (x : Reg) (kk : Byte) : wordXKK c x kk &&& 0xF000#16 = wordNNN c 0 :=
  wordNNN_mask c _

theorem wordXKK_maskSelector (c : BitVec 4) (x : Reg) (kk : Byte) :
    wordXKK c x kk &&& 0xF0FF#16 = wordXKK c 0 kk := by
  have h : (0xF0FF#16 : Word) = 0xF#4 ++ (0#4 ++ 0xFF#8 : BitVec 12) := rfl
  unfold wordXKK
  rw [h, BitVec.and_append, BitVec.and_append]
  congr 1
  · exact BitVec.and_allOnes
  · congr 1
    · exact BitVec.and_zero
    · exact BitVec.and_allOnes

theorem wordXYN_mask (c : BitVec 4) (x y : Reg) (n : BitVec 4) : wordXYN c x y n &&& 0xF000#16 = wordNNN c 0 :=
  wordNNN_mask c _

theorem wordXYN_maskSelector (c : BitVec 4) (x y : Reg) (n : BitVec 4) :
    wordXYN c x y n &&& 0xF00F#16 = wordXYN c 0 0 n := by
  have h : (0xF00F#16 : Word) = 0xF#4 ++ (0#4 ++ (0#4 ++ 0xF#4 : BitVec 8) : BitVec 12) := rfl
  unfold wordXYN
  rw [h, BitVec.and_append, BitVec.and_append, BitVec.and_append]
  congr 1
  · exact BitVec.and_allOnes
  · congr 1
    · exact BitVec.and_zero
    · congr 1
      · exact BitVec.and_zero
      · exact BitVec.and_allOnes

/-! ## EncodingRow: the word of an instruction matches its row of the opcode map -/

/-- The encoded word of an instruction matches the mask and pattern of the instruction's row (R65). -/
def EncodingRow.Statement (i : Instr) : Prop := i.row.covers (encode i) = true

theorem EncodingRow.clearScreen : EncodingRow.Statement .clearScreen := rfl
theorem EncodingRow.ret : EncodingRow.Statement .ret := rfl
theorem EncodingRow.jump (nnn : BitVec 12) : EncodingRow.Statement (.jump nnn) :=
  beq_iff_eq.mpr (wordNNN_mask _ _)
theorem EncodingRow.call (nnn : BitVec 12) : EncodingRow.Statement (.call nnn) :=
  beq_iff_eq.mpr (wordNNN_mask _ _)
theorem EncodingRow.skipEqImm (x : Reg) (kk : Byte) : EncodingRow.Statement (.skipEqImm x kk) :=
  beq_iff_eq.mpr (wordXKK_mask _ _ _)
theorem EncodingRow.skipNeqImm (x : Reg) (kk : Byte) : EncodingRow.Statement (.skipNeqImm x kk) :=
  beq_iff_eq.mpr (wordXKK_mask _ _ _)
theorem EncodingRow.skipEqReg (x y : Reg) : EncodingRow.Statement (.skipEqReg x y) :=
  beq_iff_eq.mpr (wordXYN_maskSelector _ _ _ _)
theorem EncodingRow.loadImm (x : Reg) (kk : Byte) : EncodingRow.Statement (.loadImm x kk) :=
  beq_iff_eq.mpr (wordXKK_mask _ _ _)
theorem EncodingRow.addImm (x : Reg) (kk : Byte) : EncodingRow.Statement (.addImm x kk) :=
  beq_iff_eq.mpr (wordXKK_mask _ _ _)
theorem EncodingRow.assign (x y : Reg) : EncodingRow.Statement (.assign x y) :=
  beq_iff_eq.mpr (wordXYN_maskSelector _ _ _ _)
theorem EncodingRow.orReg (x y : Reg) : EncodingRow.Statement (.orReg x y) :=
  beq_iff_eq.mpr (wordXYN_maskSelector _ _ _ _)
theorem EncodingRow.andReg (x y : Reg) : EncodingRow.Statement (.andReg x y) :=
  beq_iff_eq.mpr (wordXYN_maskSelector _ _ _ _)
theorem EncodingRow.xorReg (x y : Reg) : EncodingRow.Statement (.xorReg x y) :=
  beq_iff_eq.mpr (wordXYN_maskSelector _ _ _ _)
theorem EncodingRow.addReg (x y : Reg) : EncodingRow.Statement (.addReg x y) :=
  beq_iff_eq.mpr (wordXYN_maskSelector _ _ _ _)
theorem EncodingRow.subReg (x y : Reg) : EncodingRow.Statement (.subReg x y) :=
  beq_iff_eq.mpr (wordXYN_maskSelector _ _ _ _)
theorem EncodingRow.shiftRight (x y : Reg) : EncodingRow.Statement (.shiftRight x y) :=
  beq_iff_eq.mpr (wordXYN_maskSelector _ _ _ _)
theorem EncodingRow.subnReg (x y : Reg) : EncodingRow.Statement (.subnReg x y) :=
  beq_iff_eq.mpr (wordXYN_maskSelector _ _ _ _)
theorem EncodingRow.shiftLeft (x y : Reg) : EncodingRow.Statement (.shiftLeft x y) :=
  beq_iff_eq.mpr (wordXYN_maskSelector _ _ _ _)
theorem EncodingRow.skipNeqReg (x y : Reg) : EncodingRow.Statement (.skipNeqReg x y) :=
  beq_iff_eq.mpr (wordXYN_maskSelector _ _ _ _)
theorem EncodingRow.loadIndex (nnn : BitVec 12) : EncodingRow.Statement (.loadIndex nnn) :=
  beq_iff_eq.mpr (wordNNN_mask _ _)
theorem EncodingRow.jumpOffset (nnn : BitVec 12) : EncodingRow.Statement (.jumpOffset nnn) :=
  beq_iff_eq.mpr (wordNNN_mask _ _)
theorem EncodingRow.randomAnd (x : Reg) (kk : Byte) : EncodingRow.Statement (.randomAnd x kk) :=
  beq_iff_eq.mpr (wordXKK_mask _ _ _)
theorem EncodingRow.draw (x y : Reg) (n : Nat) : EncodingRow.Statement (.draw x y n) :=
  beq_iff_eq.mpr (wordXYN_mask _ _ _ _)
theorem EncodingRow.skipKeyPressed (x : Reg) : EncodingRow.Statement (.skipKeyPressed x) :=
  beq_iff_eq.mpr (wordXKK_maskSelector _ _ _)
theorem EncodingRow.skipKeyNotPressed (x : Reg) : EncodingRow.Statement (.skipKeyNotPressed x) :=
  beq_iff_eq.mpr (wordXKK_maskSelector _ _ _)
theorem EncodingRow.getDelay (x : Reg) : EncodingRow.Statement (.getDelay x) :=
  beq_iff_eq.mpr (wordXKK_maskSelector _ _ _)
theorem EncodingRow.waitForKey (x : Reg) : EncodingRow.Statement (.waitForKey x) :=
  beq_iff_eq.mpr (wordXKK_maskSelector _ _ _)
theorem EncodingRow.setDelay (x : Reg) : EncodingRow.Statement (.setDelay x) :=
  beq_iff_eq.mpr (wordXKK_maskSelector _ _ _)
theorem EncodingRow.setSound (x : Reg) : EncodingRow.Statement (.setSound x) :=
  beq_iff_eq.mpr (wordXKK_maskSelector _ _ _)
theorem EncodingRow.addToIndex (x : Reg) : EncodingRow.Statement (.addToIndex x) :=
  beq_iff_eq.mpr (wordXKK_maskSelector _ _ _)
theorem EncodingRow.fontCharAddress (x : Reg) : EncodingRow.Statement (.fontCharAddress x) :=
  beq_iff_eq.mpr (wordXKK_maskSelector _ _ _)
theorem EncodingRow.storeBcd (x : Reg) : EncodingRow.Statement (.storeBcd x) :=
  beq_iff_eq.mpr (wordXKK_maskSelector _ _ _)
theorem EncodingRow.registerDump (x : Reg) : EncodingRow.Statement (.registerDump x) :=
  beq_iff_eq.mpr (wordXKK_maskSelector _ _ _)
theorem EncodingRow.registerLoad (x : Reg) : EncodingRow.Statement (.registerLoad x) :=
  beq_iff_eq.mpr (wordXKK_maskSelector _ _ _)

end Sys2Proof.Laws
end

