-- ==== Sys2Proof/Machine/Listing.lean ====
section
/-! DEFINITION. The spec's assembly notation (spec/30_encoding.md R69, R70; decision D27, log entry 22):
how an instruction is written, and the bytes of a listing. Nothing the machine does depends on it. -/

namespace Sys2Proof.Machine

/-- The hexadecimal digits. -/
def hexDigit (d : Nat) : Char :=
  ['0', '1', '2', '3', '4', '5', '6', '7', '8', '9', 'A', 'B', 'C', 'D', 'E', 'F'].getD d '0'

/-- A number below `16 ^ width` in hexadecimal with the prefix 0x (spec/00_scope.md R6). -/
def hexNumber (width n : Nat) : String :=
  "0x" ++ String.ofList ((List.range width).reverse.map fun k => hexDigit (n / 16 ^ k % 16))

/-- "a register is `V` followed by one hexadecimal digit" (R69). -/
def regName (r : Reg) : String := String.ofList ['V', hexDigit r.val]

/-- `Vx,KK`. -/
def operandsXKK (x : Reg) (kk : Byte) : String := regName x ++ "," ++ hexNumber 2 kk.toNat
/-- `Vx,Vy`. -/
def operandsXY (x y : Reg) : String := regName x ++ "," ++ regName y

/-- The operands of an instruction as R69 lists them; the shifts name no `y`. -/
def operandText : Instr → String
  | .clearScreen | .ret => ""
  | .jump nnn | .call nnn | .loadIndex nnn | .jumpOffset nnn => hexNumber 3 nnn.toNat
  | .skipEqImm x kk | .skipNeqImm x kk | .loadImm x kk | .addImm x kk | .randomAnd x kk => operandsXKK x kk
  | .skipEqReg x y | .skipNeqReg x y | .assign x y | .orReg x y | .andReg x y | .xorReg x y | .addReg x y
  | .subReg x y | .subnReg x y => operandsXY x y
  | .shiftRight x _ | .shiftLeft x _ => regName x
  | .draw x y n => operandsXY x y ++ "," ++ toString n
  | .skipKeyPressed x | .skipKeyNotPressed x | .getDelay x | .waitForKey x | .setDelay x | .setSound x
  | .addToIndex x | .fontCharAddress x | .storeBcd x | .registerDump x | .registerLoad x => regName x

/-- `<name> <operands>` (R69). -/
def listingText (i : Instr) : String :=
  if operandText i = "" then i.row.mnemonic else i.row.mnemonic ++ " " ++ operandText i

/-- A line of a listing: an instruction, or literal bytes, which are no instruction (R69). -/
inductive Line where
  | instr (i : Instr)
  | data (bytes : List Byte)
  deriving DecidableEq, Repr

/-- "the `y` field assembles as 0" in the two shifts (R69). -/
def assembled : Instr → Instr
  | .shiftRight x _ => .shiftRight x 0
  | .shiftLeft x _ => .shiftLeft x 0
  | i => i

/-- The bytes of a line, an instruction's word big-endian (spec/20_memory.md R45). -/
def Line.bytes : Line → List Byte
  | .instr i => [highByte (encode (assembled i)), lowByte (encode (assembled i))]
  | .data bytes => bytes

/-- The ROM a listing stands for. -/
def assemble (lines : List Line) : List Byte := lines.flatMap Line.bytes

/-- `halt` at an address: a jump to itself (R70). -/
def haltAt (a : BitVec 12) : Instr := .jump a

end Sys2Proof.Machine
end

