-- ==== Sys2Proof/Tests/Slice0.lean ====
section
/-! SUPPORT. Tests and witnesses. An expected value is the spec's: the encodings of spec/30_encoding.md R65,
the examples of the instruction rules, the vectors of spec/95_test_vectors.md; each test names its source.
A `witness_…` shows a state and operands that meet the hypotheses of the obligation it is named after. -/

open Sys2Proof Sys2Proof.Machine

/-! ## Helpers -/

/-- Bytes placed in memory. -/
def Sys2Proof.Machine.State.withBytes (s : State) (a : Nat) (bs : List Byte) : State :=
  s.setMem (s.mem.writeBytes a bs)

/-- A key held down. -/
def Sys2Proof.Machine.State.withKey (s : State) (k : Fin 16) : State := s.setKeys (s.keys.set k true)

/-- A call stack of this depth whose slots all hold this address. -/
def Sys2Proof.Machine.State.withStack (s : State) (d : Fin 17) (a : Word) : State :=
  { s with sp := d, stack := Vector.replicate 16 a }

namespace Sys2Proof.Tests

/-- A step answers next, and the next state has the property. -/
def goes (s : State) (p : State → Bool) : Bool :=
  match Sys2Proof.Machine.step s with
  | .next t => p t
  | .fault _ => false
  | .refused _ => false

/-- A step answers this fault. -/
def stops (s : State) (f : Fault) : Bool :=
  match Sys2Proof.Machine.step s with
  | .next _ => false
  | .fault g => decide (g = f)
  | .refused _ => false

/-- The state after reset with an instruction word at 0x200. -/
def start (w : Nat) : State := State.reset.withFetchWord 16 w

/-- The pixels of a screen that are set, as numbers `y * 64 + x`, row by row. -/
def lit (s : State) : List Nat :=
  (List.range 32).flatMap fun y =>
    if s.fb.row y = 0 then [] else ((List.range 64).filter fun x => s.pixel x y).map fun x => y * 64 + x

/-! ## Well-formedness -/

/-- R63: a count of sprite rows is at most 15; the one operand that can be ill formed. -/
theorem test_wf_refuses_sixteen_rows : (Instr.draw 1 2 16).wf = false ∧ (Instr.draw 1 2 15).wf = true := by
  decide

/-! ## Decoding: one word per constructor, written out from R61 and R65 (nibbles c, x, y, n) -/

theorem test_decode_control :
    decode 0b0000000011101110 = some .ret ∧ decode 0b0001101010111100 = some (.jump 0xABC) ∧
    decode 0b0010001000001010 = some (.call 0x20A) ∧ decode 0b0011101001000010 = some (.skipEqImm 10 0x42) ∧
    decode 0b0100001000010001 = some (.skipNeqImm 2 0x11) ∧
    decode 0b0101001101000000 = some (.skipEqReg 3 4) ∧ decode 0b1001000100100000 = some (.skipNeqReg 1 2) ∧
    decode 0b1011001100000001 = some (.jumpOffset 0x301) := by decide

theorem test_decode_alu :
    decode 0b0110101001111111 = some (.loadImm 10 0x7F) ∧ decode 0b0111000100000010 = some (.addImm 1 0x02) ∧
    decode 0b1000000100100000 = some (.assign 1 2) ∧ decode 0b1000000100100001 = some (.orReg 1 2) ∧
    decode 0b1000000100100010 = some (.andReg 1 2) ∧ decode 0b1000000100100011 = some (.xorReg 1 2) ∧
    decode 0b1000111100010100 = some (.addReg 15 1) ∧ decode 0b1000000000010101 = some (.subReg 0 1) ∧
    decode 0b1000001101000110 = some (.shiftRight 3 4) ∧ decode 0b1000000000010111 = some (.subnReg 0 1) ∧
    decode 0b1000111111111110 = some (.shiftLeft 15 15) ∧
    decode 0b1100000100001111 = some (.randomAnd 1 0x0F) := by decide

theorem test_decode_index :
    decode 0b1010000100100011 = some (.loadIndex 0x123) ∧ decode 0b1111001000011110 = some (.addToIndex 2) ∧
    decode 0b1111010000101001 = some (.fontCharAddress 4) ∧ decode 0b1111000000110011 = some (.storeBcd 0) ∧
    decode 0b1111001101010101 = some (.registerDump 3) ∧
    decode 0b1111001001100101 = some (.registerLoad 2) := by decide

theorem test_decode_display : decode 0b0000000011100000 = some .clearScreen ∧
    decode 0b1101000100100101 = some (.draw 1 2 5) := by decide

theorem test_decode_keys_timers :
    decode 0b1110010110011110 = some (.skipKeyPressed 5) ∧
    decode 0b1110010110100001 = some (.skipKeyNotPressed 5) ∧
    decode 0b1111001100001010 = some (.waitForKey 3) ∧ decode 0b1111000100000111 = some (.getDelay 1) ∧
    decode 0b1111000000010101 = some (.setDelay 0) ∧ decode 0b1111001000011000 = some (.setSound 2) := by decide

/-- Section 2.6 of spec/95_test_vectors.md: words that raise UnknownOpcode. -/
theorem test_decode_illegal :
    ([0x0000, 0x00E1, 0x00EF, 0x0123, 0x5121, 0x512F, 0x8128, 0x812D, 0x812F, 0x9121] : List Word).all
      (fun w => decode w == none) = true ∧
    ([0xE100, 0xE19F, 0xF100, 0xF130, 0xF175, 0xF185, 0xF1FF] : List Word).all
      (fun w => decode w == none) = true := by decide

/-! ## Control transfer (vectors 2.1) -/

theorem test_return : goes ((start 0x00EE).withStack 1 0x0ABC) (fun t => t.pc == 0x0ABC && t.sp.val == 0) = true ∧
    stops (start 0x00EE) .stackUnderflow = true := by decide

theorem test_jump : goes (start 0x1ABC) (fun t => t.pc == 0x0ABC) = true ∧
    goes (start 0x1200) (fun t => t.pc == 0x0200) = true := by decide

theorem test_call : goes (start 0x2ABC)
      (fun t => t.pc == 0x0ABC && t.sp.val == 1 && t.stack[0] == 0x0202) = true ∧
    stops ((start 0x2ABC).withStack 16 0x0202) .stackOverflow = true := by decide

theorem test_skipEqImm : goes ((start 0x3A42).setV 10 0x42) (fun t => t.pc == 0x0204) = true ∧
    goes ((start 0x3A42).setV 10 0x43) (fun t => t.pc == 0x0202) = true := by decide

theorem test_skipNeqImm : goes ((start 0x4A42).setV 10 0x42) (fun t => t.pc == 0x0202) = true ∧
    goes ((start 0x4A42).setV 10 0x43) (fun t => t.pc == 0x0204) = true := by decide

theorem test_skipEqReg : goes (((start 0x5120).setV 1 7).setV 2 8) (fun t => t.pc == 0x0202) = true ∧
    goes ((start 0x5330).setV 3 9) (fun t => t.pc == 0x0204) = true := by decide

theorem test_skipNeqReg : goes (((start 0x9120).setV 1 7).setV 2 7) (fun t => t.pc == 0x0202) = true ∧
    goes (((start 0x9120).setV 1 7).setV 2 8) (fun t => t.pc == 0x0204) = true := by decide

theorem test_jumpOffset : goes ((start 0xB301).setV 0 0x10) (fun t => t.pc == 0x0311) = true ∧
    goes ((start 0xBFFF).setV 0 0xFF)
      (fun t => t.pc == 0x10FE && stops t (.addressOutOfRange 0x10FE)) = true := by decide

/-- A skip at the top of memory completes; the next fetch faults. -/
theorem test_skip_at_the_top :
    goes ((State.reset.setPc 0x0FFC).withFetchWord 16 0x3000)
      (fun t => t.pc == 0x1000 && stops t (.addressOutOfRange 0x1000)) = true := by decide

/-- A fetch whose second byte is out of range, and one that is out of range whole. -/
theorem test_fetch_range : stops (State.reset.setPc 0x0FFF) (.addressOutOfRange 0x1000) = true ∧
    stops (State.reset.setPc 0x1002) (.addressOutOfRange 0x1002) = true := by decide

/-- An odd pc fetches like any other: the bytes 00 6A 55 00 from 0x200. -/
theorem test_fetch_odd : goes ((State.reset.withBytes 0x200 [0x00, 0x6A, 0x55, 0x00]).setPc 0x0201)
    (fun t => t.getV 10 == 0x55 && t.pc == 0x0203) = true := by decide

/-! ## Load, arithmetic, logic (vectors 2.2) -/

theorem test_loadImm : goes (start 0x6F05) (fun t => t.getV 15 == 0x05 && t.pc == 0x0202) = true := by decide

theorem test_addImm : goes (((start 0x7102).setV 1 0xFF).setV 15 0x07)
    (fun t => t.getV 1 == 0x01 && t.getV 15 == 0x07) = true := by decide

theorem test_assign : goes (((start 0x8120).setV 1 0x01).setV 2 0x99)
    (fun t => t.getV 1 == 0x99 && t.getV 2 == 0x99) = true := by decide

theorem test_or : goes ((((start 0x8121).setV 1 0xF0).setV 2 0x0F).setV 15 5)
    (fun t => t.getV 1 == 0xFF && t.getV 15 == 5) = true := by decide

theorem test_and : goes ((((start 0x8122).setV 1 0xF0).setV 2 0x3C).setV 15 5)
    (fun t => t.getV 1 == 0x30 && t.getV 15 == 5) = true := by decide

theorem test_xor : goes ((((start 0x8123).setV 1 0xF0).setV 2 0x3C).setV 15 5)
      (fun t => t.getV 1 == 0xCC && t.getV 15 == 5) = true ∧
    goes ((start 0x8113).setV 1 0x5A) (fun t => t.getV 1 == 0) = true := by decide

theorem test_addReg : goes (((start 0x8F14).setV 15 0xC8).setV 1 0x64) (fun t => t.getV 15 == 1) = true ∧
    goes (((start 0x81F4).setV 1 0xFA).setV 15 0x0A) (fun t => t.getV 1 == 0x04 && t.getV 15 == 1) = true := by
  decide

theorem test_addReg_double : goes ((start 0x8224).setV 2 0x90) (fun t => t.getV 2 == 0x20 && t.getV 15 == 1) = true ∧
    goes ((((start 0x8014).setV 0 0x0A).setV 1 0x14).setV 15 1)
      (fun t => t.getV 0 == 0x1E && t.getV 15 == 0) = true := by decide

theorem test_subReg : goes (((start 0x8015).setV 0 0x05).setV 1 0x0A)
      (fun t => t.getV 0 == 0xFB && t.getV 15 == 0) = true ∧
    goes (((start 0x8015).setV 0 0x07).setV 1 0x07) (fun t => t.getV 0 == 0 && t.getV 15 == 1) = true := by decide

theorem test_subnReg : goes (((start 0x8017).setV 0 0x05).setV 1 0x0A)
      (fun t => t.getV 0 == 0x05 && t.getV 15 == 1) = true ∧
    goes (((start 0x8017).setV 0 0x0A).setV 1 0x05) (fun t => t.getV 0 == 0xFB && t.getV 15 == 0) = true := by
  decide

theorem test_shiftRight : goes (((start 0x8346).setV 3 0x03).setV 4 0xFF)
      (fun t => t.getV 3 == 0x01 && t.getV 4 == 0xFF && t.getV 15 == 1) = true ∧
    goes ((start 0x8F06).setV 15 0x02) (fun t => t.getV 15 == 0) = true := by decide

theorem test_shiftLeft : goes ((start 0x830E).setV 3 0x81) (fun t => t.getV 3 == 0x02 && t.getV 15 == 1) = true ∧
    goes ((start 0x8FFE).setV 15 0x81) (fun t => t.getV 15 == 1) = true := by decide

theorem test_randomAnd : goes ((start 0xC10F).setRnd 0xA7) (fun t => t.getV 1 == 0x07) = true ∧
    goes (((start 0xC300).setRnd 0xA7).setV 3 9) (fun t => t.getV 3 == 0) = true := by decide

/-! ## Index and memory (vectors 2.3) -/

theorem test_loadIndex : goes (start 0xAFFF) (fun t => t.index == 0x0FFF) = true := by decide

theorem test_addToIndex : goes (((start 0xF21E).setIndex 0x0FF0).setV 2 0x20) (fun t => t.index == 0x1010) = true ∧
    goes (((start 0xF21E).setIndex 0xFFFF).setV 2 2) (fun t => t.index == 0x0001) = true := by decide

theorem test_fontCharAddress : goes ((start 0xF429).setV 4 0x0F) (fun t => t.index == 0x009B) = true ∧
    goes ((start 0xF429).setV 4 0x1A) (fun t => t.index == 0x0082) = true := by decide

theorem test_storeBcd : goes (((start 0xF033).setIndex 0x0FFD).setV 0 156)
      (fun t => t.readByte 0xFFD == 1 && t.readByte 0xFFE == 5 && t.readByte 0xFFF == 6 && t.index == 0x0FFD) = true ∧
    stops (((start 0xF033).setIndex 0x0FFE).setV 0 156) (.addressOutOfRange 0x1000) = true := by decide

theorem test_storeBcd_far : stops ((start 0xF033).setIndex 0x1010) (.addressOutOfRange 0x1010) = true := by decide

/-- The state of the FX55 vector: V0 to V3 hold 11 to 44, I is 0x400. -/
def dumping : State :=
  (((((start 0xF355).setIndex 0x0400).setV 0 0x11).setV 1 0x22).setV 2 0x33).setV 3 0x44

theorem test_registerDump : goes ((dumping.setV 4 0x55).withBytes 0x404 [0xEE])
      (fun t => t.readByte 0x400 == 0x11 && t.readByte 0x403 == 0x44 && t.readByte 0x404 == 0xEE &&
        t.index == 0x0400) = true ∧
    stops ((start 0xFF55).setIndex 0x0FF1) (.addressOutOfRange 0x1000) = true := by decide

theorem test_registerLoad : goes (((start 0xF165).setIndex 0x0FFE).withBytes 0xFFE [1, 2])
      (fun t => t.getV 0 == 1 && t.getV 1 == 2 && t.getV 2 == 0 && t.index == 0x0FFE) = true ∧
    stops ((start 0xF265).setIndex 0x0FFE) (.addressOutOfRange 0x1000) = true := by decide

/-- A store is seen by the next fetch: the vector ROM F1 55 00 00. -/
theorem test_store_then_fetch : goes ((((start 0xF155).setIndex 0x0202).setV 0 0x12).setV 1 0x02)
    (fun t => t.pc == 0x0202 && goes t (fun u => u.pc == 0x0202)) = true := by decide

/-! ## Display (vectors 2.4) -/

/-- A draw word with the sprite at 0x300. -/
def drawing (w : Nat) (sprite : List Byte) : State := ((start w).withBytes 0x300 sprite).setIndex 0x0300

theorem test_clearScreen : goes (((start 0x00E0).setFb (State.reset.fb.set 3 0x0800000000000000)).setV 15 7)
    (fun t => lit t == [] && t.getV 15 == 7) = true := by decide +kernel

/-- First draw sets 8 pixels, the same word again clears them and reports the collision (S6). -/
theorem test_draw_twice : goes (drawing 0xD011 [0xFF]) (fun t => lit t == [0, 1, 2, 3, 4, 5, 6, 7] &&
    t.getV 15 == 0 && goes (t.setPc 0x0200) (fun u => lit u == [] && u.getV 15 == 0x01)) = true := by
  decide +kernel

theorem test_draw_clips : goes (((drawing 0xD012 [0xC0, 0xC0]).setV 0 0x7F).setV 1 0x3F)
      (fun t => lit t == [31 * 64 + 63] && t.getV 15 == 0) = true ∧
    goes (((drawing 0xD011 [0x81]).setV 0 70).setV 1 33) (fun t => lit t == [64 + 6, 64 + 13]) = true := by
  decide +kernel

theorem test_draw_glyph : goes ((start 0xD005).setIndex 0x0050) (fun t => lit t ==
    [0, 1, 2, 3, 64, 67, 128, 131, 192, 195, 256, 257, 258, 259] && t.getV 15 == 0) = true := by decide +kernel

theorem test_draw_range : stops ((start 0xD015).setIndex 0x0FFC) (.addressOutOfRange 0x1000) = true ∧
    goes (((start 0xD010).setIndex 0xFFFF).setV 15 5) (fun t => lit t == [] && t.getV 15 == 0) = true := by
  decide +kernel

/-! ## Keys and timers (vectors 2.5) -/

theorem test_skipKeyPressed : goes (((start 0xE59E).setV 5 0x1A).withKey 10) (fun t => t.pc == 0x0204) = true ∧
    goes ((start 0xE59E).setV 5 0x0A) (fun t => t.pc == 0x0202) = true := by decide

theorem test_skipKeyNotPressed : goes (((start 0xE5A1).setV 5 0x0A).withKey 10) (fun t => t.pc == 0x0202) = true ∧
    goes ((start 0xE5A1).setV 5 0x0A) (fun t => t.pc == 0x0204) = true := by decide

theorem test_waitForKey : goes (((start 0xF30A).withKey 9).withKey 7) (fun t => t.getV 3 == 7 && t.pc == 0x0202) = true ∧
    goes ((start 0xF30A).setV 3 0x55) (fun t => t.getV 3 == 0x55 && t.pc == 0x0200) = true := by decide

theorem test_getDelay : goes ((start 0xF107).setDt 0x3C) (fun t => t.getV 1 == 0x3C && t.dt == 0x3C) = true := by
  decide

theorem test_setDelay : goes ((start 0xF015).setV 0 3) (fun t => t.dt == 3 && t.st == 0) = true := by decide

theorem test_setSound : goes ((start 0xF218).setV 2 0x1E) (fun t => t.st == 0x1E && t.dt == 0 && t.tone) = true := by
  decide

theorem test_tick : ((State.reset.setDt 2).setSt 1).tick.dt = 1 ∧ ((State.reset.setDt 2).setSt 1).tick.st = 0 ∧
    ((State.reset.setDt 2).setSt 1).tick.tone = false ∧ State.reset.tick.dt = 0 ∧ State.reset.tick.st = 0 := by
  decide

/-! ## The host's events (section 2.6) -/

theorem test_load_longest : ((Session.reset defaultFont).load (List.replicate 3585 0xAA)).1 = .fault (.romTooLarge 3585) ∧
    ((Session.reset defaultFont).load []).1 = .ok := by decide +kernel

theorem test_load_then_step : (((Session.reset defaultFont).load [0x60, 0x05, 0x70, 0x0A]).2.step State.reset.keys 0).1 = .done ∧
    (((Session.reset defaultFont).load [0x60, 0x05]).2.load [0x60, 0x05]).1 = .refused .loadNotAfterReset ∧
    (((Session.reset defaultFont).load [0xF3, 0x0A]).2.step State.reset.keys 0).1 = .waiting := by decide +kernel

/-- Another font: glyph 0 is drawn from its bytes, and reset brings it back (R42, R200). -/
theorem test_another_font :
    (State.resetWith ((Vector.replicate 80 0x00).set 0 0x80)).readByte 0x050 = 0x80 ∧
    (State.resetWith ((Vector.replicate 80 0x00).set 0 0x80)).readByte 0x09F = 0x00 ∧
    (State.resetWith defaultFont).mem = [] ∧
    ((Session.step ⟨defaultFont.set 0 0x80, start 0x1200, false⟩ State.reset.keys 0).2.apply .reset).2.machine.readByte
      0x050 = 0x80 := by decide +kernel

/-- A tick keeps the way open for a load, a step closes it (R201). -/
theorem test_load_after_tick :
    (((Session.reset defaultFont).apply .tick).2.load [0x60, 0x05]).1 = .ok ∧
    ((Session.step ⟨defaultFont, start 0x1200, true⟩ State.reset.keys 0).2.load []).1 = .refused .loadNotAfterReset := by
  decide +kernel

/-! ## The end of a run -/

/-- Program P1 ends at its jump to itself after two steps; P8 faults and is not ended (R208, R178). -/
theorem test_end_of_run :
    ((Session.reset defaultFont).runUntil .atHalt 0 [.load [0x60, 0x05, 0x70, 0x0A, 0x12, 0x04],
      .step State.reset.keys 0, .step State.reset.keys 0, .step State.reset.keys 0]).1 = .ended ∧
    ((Session.reset defaultFont).runUntil .atHalt 0 [.load [0x60, 0x01, 0x00, 0xEE],
      .step State.reset.keys 0, .tick, .step State.reset.keys 0]).1 = .faulted .stackUnderflow := by decide +kernel

theorem test_end_of_run_in_own_terms :
    ((Session.reset defaultFont).runUntil (.pcReached 0x0202) 0 [.load [0x60, 0x01],
      .step State.reset.keys 0]).1 = .ended ∧
    ((Session.reset defaultFont).runUntil (.stepsTaken 2) 0 [.load [0x60, 0x01],
      .step State.reset.keys 0]).1 = .outOfEvents := by decide +kernel

/-! ## Listings -/

/-- The ROM of program P1: load-imm V0, 0x05; add-imm V0, 0x0A; halt at 0x204. -/
theorem test_assemble : assemble [.instr (.loadImm 0 0x05), .instr (.addImm 0 0x0A), .instr (haltAt 0x204)] =
    [0x60, 0x05, 0x70, 0x0A, 0x12, 0x04] ∧ assemble [.instr (.shiftLeft 3 4), .data [0xFF]] = [0x83, 0x0E, 0xFF] := by
  decide

theorem test_listing : listingText (.loadImm 0 0x05) = "load-imm V0,0x05" ∧
    listingText (.draw 1 15 5) = "draw V1,VF,5" ∧ listingText .ret = "return" := by decide +kernel

/-! ## Witnesses: reset, fetch, decode -/

theorem witness_ResetLeavesTheStatedValues : State.resetWith (Vector.replicate 80 0xFF) =
      State.resetWith (Vector.replicate 80 0xFF) ∧
    79 < 80 ∧ 0x04F < 0x050 ∧ 0x0A0 ≤ 0x0A0 ∧ 0xFFF < 0x1000 := ⟨rfl, by decide⟩

theorem witness_StepRunsTheDecodedInstruction :
    ((State.reset.setPc 0x0FFE).withFetchWord 16 0x6A7F).pc.toNat ≤ 0x0FFE ∧
    decode (wordOfBytes (((State.reset.setPc 0x0FFE).withFetchWord 16 0x6A7F).readByte 0x0FFE)
      (((State.reset.setPc 0x0FFE).withFetchWord 16 0x6A7F).readByte 0x0FFF)) = some (.loadImm 10 0x7F) := by decide

theorem witness_StepFaultsInTheFixedOrder :
    stops (State.reset.setPc 0x0FFF) (.addressOutOfRange 0x1000) = true ∧
    stops (start 0x00E1) (.unknownOpcode 0x00E1) = true ∧ stops (start 0x00EE) .stackUnderflow = true ∧
    stops ((State.reset.setPc 0x0FFE).withFetchWord 16 0x0000) (.unknownOpcode 0x0000) = true := by decide

theorem witness_IllegalWordsAreExactly :
    decode 0x0FFF = none ∧ decode 0x500F = none ∧ decode 0x8008 = none ∧ decode 0x9001 = none ∧
    decode 0xE09F = none ∧ decode 0xFFFF = none ∧ (decode 0x1000).isSome = true := by decide

theorem witness_DecoderAgreesWithOpcodeMap :
    (Instr.skipEqReg 15 15).row ∈ opcodeMap ∧ (Instr.skipEqReg 15 15).row.covers 0x5FF0 = true ∧
    decode 0x5FF0 = some (.skipEqReg 15 15) ∧ decode 0x5FF1 = none := by decide

theorem witness_DecodeOfEncode : (Instr.draw 15 15 15).wf = true ∧ (Instr.jump 0xFFF).wf = true := by decide

theorem witness_EncodeOfDecode : decode 0xDFFF = some (.draw 15 15 15) := by decide

theorem witness_StoredWordIsFetched :
    (State.reset.setPc 0x0FFE).pc.toNat ≤ 0x0FFE ∧ (Instr.draw 1 2 15).wf = true := by decide

/-! ## Witnesses: control transfer -/

theorem witness_ReturnPopsTheStack : State.reset.sp.val = 0 ∧
    (State.reset.withStack 1 0x0206).sp.val = (0 : Fin 16).val + 1 ∧
    (State.reset.withStack 16 0x0206).sp.val = (15 : Fin 16).val + 1 := by decide

theorem witness_CallPushesNpc : (State.reset.withStack 16 0x0206).sp.val = 16 ∧
    State.reset.sp.val = (0 : Fin 16).val ∧ (State.reset.withStack 15 0x0206).sp.val = (15 : Fin 16).val := by decide

theorem witness_KeySkipsTestTheLevel : (10 : Fin 16).val = ((State.reset.setV 5 0x1A).getV 5).toNat % 16 ∧
    (15 : Fin 16).val = ((State.reset.setV 5 0xFF).getV 5).toNat % 16 := by decide

/-! ## Witnesses: arithmetic and memory -/

/-- `x ≠ 15` at the boundary, for add-reg, the subtractions and the shifts; `kk = 0` for random-and. -/
theorem witness_AddRegSumAndCarry : (14 : Reg) ≠ 15 := by decide
theorem witness_SubtractionsAndNoBorrow : (14 : Reg) ≠ 15 := by decide
theorem witness_ShiftsByOneIgnoreY : (14 : Reg) ≠ 15 := by decide
theorem witness_RandomAndMasksThePort : goes ((start 0xC100).setRnd 0xFF) (fun t => t.getV 1 == 0) = true := by decide

theorem witness_StoreBcdWritesThreeDigits : (State.reset.setIndex 0x0FFD).index.toNat + 2 ≤ 0x0FFF ∧
    0x0FFF < (State.reset.setIndex 0x0FFE).index.toNat + 2 := by decide

theorem witness_RegisterDumpStoresV0ToVx :
    (State.reset.setIndex 0x0FF0).index.toNat + (15 : Reg).val ≤ 0x0FFF ∧
    0x0FFF < (State.reset.setIndex 0x0FF1).index.toNat + (15 : Reg).val := by decide

theorem witness_RegisterLoadReadsV0ToVx :
    (State.reset.setIndex 0x0FFE).index.toNat + (1 : Reg).val ≤ 0x0FFF ∧
    0x0FFF < (State.reset.setIndex 0x0FFE).index.toNat + (2 : Reg).val := by decide

theorem witness_CanonicalMemoriesAreEqualData :
    Memory.wf [(0x200, 0x60), (0xFFF, 0x05)] = true ∧
    ∀ a, Memory.lookup [(0x200, 0x60)] a = Memory.lookup (Memory.write [] 0x200 0x60) a := ⟨by decide, fun _ => rfl⟩

/-! ## Witnesses: display, keys, timers -/

theorem witness_DrawXorsTheSprite : (0 : Nat) = 0 ∨ (State.reset.setIndex 0xFFFF).index.toNat + 0 ≤ 0x1000 := by decide

theorem witness_DrawXorsTheSprite_top : (State.reset.setIndex 0x0FFC).index.toNat + 4 ≤ 0x1000 := by decide

theorem witness_DrawChecksEverySpriteAddress :
    0 < 5 ∧ 0x0FFF < (State.reset.setIndex 0x0FFC).index.toNat + 5 - 1 := by decide

theorem witness_DrawMatchesThePseudocode : ∃ t, exec (.draw 0 1 15) State.reset = .next t := ⟨_, rfl⟩

theorem witness_DrawTwiceRestores :
    (State.reset.setIndex 0x0FF1).index.toNat + 15 ≤ 0x1000 ∧ (14 : Reg) ≠ 15 := by decide

theorem witness_WaitForKeyStoresTheLeastKey : (∀ k : Fin 16, State.reset.keys[k] = false) ∧
    (((State.reset.withKey 7).withKey 9).keys[(7 : Fin 16)] = true ∧
      ∀ j : Fin 16, j < 7 → ((State.reset.withKey 7).withKey 9).keys[j] = false) ∧
    ((State.reset.withKey 15).keys[(15 : Fin 16)] = true ∧
      ∀ j : Fin 16, j < 15 → (State.reset.withKey 15).keys[j] = false) := by decide

theorem witness_TickCountsDownAndStopsAtZero : (State.reset.setDt 1).dt.toNat > 0 ∧ State.reset.dt.toNat = 0 ∧
    (State.reset.setSt 255).st.toNat > 0 ∧ State.reset.st.toNat = 0 := by decide

/-! ## Witnesses: rules over all instructions -/

theorem witness_InstructionsFaultExactlyWhen :
    stops ((start 0x2ABC).withStack 16 0x0202) .stackOverflow = true ∧ stops (start 0x00EE) .stackUnderflow = true ∧
    stops ((start 0xD011).setIndex 0x1000) (.addressOutOfRange 0x1000) = true ∧
    stops ((start 0xF033).setIndex 0x0FFE) (.addressOutOfRange 0x1000) = true ∧
    stops ((start 0xF065).setIndex 0xFFFF) (.addressOutOfRange 0xFFFF) = true := by decide

theorem witness_StackFaultsExactlyWhen : (State.reset.withStack 16 0x0202).sp.val = 16 ∧ State.reset.sp.val = 0 := by
  decide

theorem witness_OnlyStoresWriteMemory : (∃ t, exec (.loadImm 0 1) State.reset = .next t) ∧
    (∀ x, Instr.loadImm 0 1 ≠ .storeBcd x) ∧ (∀ x, Instr.loadImm 0 1 ≠ .registerDump x) :=
  ⟨⟨_, rfl⟩, by decide, by decide⟩

theorem witness_OnlyDisplayWritesTheFrame : (∃ t, exec (.storeBcd 0) State.reset = .next t) ∧
    (∀ x y n, Instr.storeBcd 0 ≠ .draw x y n) ∧ Instr.storeBcd 0 ≠ .clearScreen :=
  ⟨⟨_, rfl⟩, fun _ _ _ h => Instr.noConfusion h, by decide⟩

theorem witness_WhoWritesStackTimersAndIndex : (∃ t, exec (.addImm 0 1) State.reset = .next t) ∧
    (∀ nnn, Instr.addImm 0 1 ≠ .call nnn) ∧ Instr.addImm 0 1 ≠ .ret ∧ (∀ x, Instr.addImm 0 1 ≠ .setDelay x) ∧
    (∀ x, Instr.addImm 0 1 ≠ .setSound x) ∧ (∀ nnn, Instr.addImm 0 1 ≠ .loadIndex nnn) ∧
    (∀ x, Instr.addImm 0 1 ≠ .addToIndex x) ∧ (∀ x, Instr.addImm 0 1 ≠ .fontCharAddress x) :=
  ⟨⟨_, rfl⟩, fun _ h => Instr.noConfusion h, by decide, by decide, by decide,
    fun _ h => Instr.noConfusion h, by decide, by decide⟩

theorem witness_WhoWritesTheFlagRegister : (∃ t, exec (.addReg 15 1) State.reset = .next t) ∧
    (∃ t, exec (.draw 0 1 15) State.reset = .next t) ∧ (∃ t, exec (.loadImm 15 7) State.reset = .next t) ∧
    ∃ t, exec .clearScreen State.reset = .next t := ⟨⟨_, rfl⟩, ⟨_, rfl⟩, ⟨_, rfl⟩, ⟨_, rfl⟩⟩

/-- One state for each place the program counter can stand at. -/
theorem witness_WhereThePcStands :
    goes (start 0x6001) (fun t => t.pc == 0x0202) = true ∧ goes (start 0x3000) (fun t => t.pc == 0x0204) = true ∧
    goes (start 0x1FFF) (fun t => t.pc == 0x0FFF) = true ∧
    goes ((start 0xBFFF).setV 0 0xFF) (fun t => t.pc == 0x10FE) = true ∧
    goes ((start 0x00EE).withStack 16 0x1000) (fun t => t.pc == 0x1000) = true ∧
    goes (start 0xF00A) (fun t => t.pc == 0x0200) = true ∧
    goes ((start 0xF00A).withKey 15) (fun t => t.pc == 0x0202) = true ∧
    ((State.reset.setPc 0x0FFE).withFetchWord 16 0x1FFE).atHalt = true := by decide

theorem witness_KeysReachThreeInstructionsOnly :
    (∀ x, Instr.ret ≠ .skipKeyPressed x) ∧ (∀ x, Instr.ret ≠ .skipKeyNotPressed x) ∧
    (∀ x, Instr.ret ≠ .waitForKey x) ∧ exec .ret State.reset = .fault .stackUnderflow ∧
    ∃ t, exec .ret (State.reset.withStack 1 0x0206) = .next t :=
  ⟨by decide, by decide, by decide, rfl, ⟨_, rfl⟩⟩

theorem witness_RndReachesRandomAndOnly : (∀ x kk, Instr.ret ≠ .randomAnd x kk) ∧
    exec .ret State.reset = .fault .stackUnderflow ∧ ∃ t, exec .ret (State.reset.withStack 1 0x0206) = .next t :=
  ⟨fun _ _ h => Instr.noConfusion h, rfl, ⟨_, rfl⟩⟩

/-! ## Witnesses: events and the invariant -/

theorem witness_WaitingOnlyOnKeys :
    (Session.step ⟨defaultFont, start 0xF30A, false⟩ State.reset.keys 0).1 = .waiting ∧
    (Session.step ⟨defaultFont, start 0x00EE, false⟩ State.reset.keys 0).1 = .fault .stackUnderflow := by decide

theorem witness_LoadWritesTheRom : (Session.reset defaultFont).loadable = true ∧
    (List.replicate 3584 (0xAA : Byte)).length ≤ 3584 ∧
    ((Session.reset defaultFont).load []).2.loadable = false := ⟨rfl, by rw [List.length_replicate], by decide⟩

theorem witness_TooLongRomChangesNothing : (Session.reset defaultFont).loadable = true ∧
    3584 < (List.replicate 3585 (0xAA : Byte)).length ∧ ([] : List Byte).length ≤ 3584 :=
  ⟨rfl, by rw [List.length_replicate]; decide, by decide⟩

theorem witness_FaultPersistsUntilReset :
    (Session.step ⟨defaultFont, start 0x00EE, false⟩ State.reset.keys 0).1 = .fault .stackUnderflow ∧
    Event.reset ∉ [Event.tick, .load [], .step State.reset.keys 0xFF] := by decide

/-- A full stack of addresses up to 0x1000, memory listed, and the pc at the last place it can fetch from. -/
theorem witness_StepKeepsTheInvariant :
    (((State.reset.withStack 16 0x1000).setPc 0x0FFE).withFetchWord 16 0x00EE).Inv ∧
    goes (((State.reset.withStack 16 0x1000).setPc 0x0FFE).withFetchWord 16 0x00EE)
      (fun t => t.pc == 0x1000) = true := ⟨⟨by decide, by decide, by decide⟩, by decide⟩

theorem witness_EventsKeepTheInvariant : (⟨defaultFont, State.reset, true⟩ : Session).machine.Inv :=
  ⟨by decide, by decide, by decide⟩

end Sys2Proof.Tests
end

section
/-! PROOFS. Control transfer (spec/40_control_transfer.md): jump, call and the four skips. -/

namespace Sys2Proof.Machine

/-! ## Operands and the shared endings -/

/-- The zero-extended address of a word keeps its value (spec/30_encoding.md R63). -/
@[simp] theorem addressOperand_toNat (nnn : BitVec 12) : (addressOperand nnn).toNat = nnn.toNat :=
  BitVec.toNat_setWidth_of_le (by decide)

/-- What a skip does, for the condition its rule states (R83 to R86, R88 (e)). -/
theorem skipIf_next_of_iff (s : State) {c : Bool} {p : Prop} [Decidable p] (h : c = true ↔ p) :
    ∃ t, skipIf c s = .next t ∧ t.pc = (if p then s.pc + 2 + 2 else s.pc + 2) ∧ OnlyPc s t := by
  refine ⟨_, skipIf_eq c s, ?_, onlyPc_setPc s _⟩
  simp only [State.setPc_pc, State.npc, h]

/-- The tests of the equal skips compare the registers as numbers. -/
theorem beq_iff_toNat_eq (a b : Byte) : (a == b) = true ↔ a.toNat = b.toNat := by
  rw [beq_iff_eq, BitVec.toNat_eq]

/-- The tests of the not-equal skips compare the registers as numbers. -/
theorem bne_iff_toNat_ne (a b : Byte) : (a != b) = true ↔ a.toNat ≠ b.toNat := by
  rw [bne_iff_ne, Ne, BitVec.toNat_eq]

/-! ## Pushing onto the call stack (spec/10_state.md R16) -/

/-- A full stack takes no push. -/
theorem State.push_eq_none (s : State) (a : Word) (h : s.sp.val = 16) : s.push a = none := by
  obtain ⟨-, hnone⟩ | ⟨t, -, hlt, -⟩ := s.push_cases a
  · exact hnone
  · omega

/-- A push at depth `k` takes slot `k`, and leaves the rest of the machine as it was. -/
theorem State.push_at_depth (s : State) (a : Word) (k : Fin 16) (h : s.sp.val = k.val) :
    ∃ t, s.push a = some t ∧ t.sp.val = k.val + 1 ∧ t.stack[k] = a ∧
      (∀ j : Fin 16, j ≠ k → t.stack[j] = s.stack[j]) ∧ ∀ w, OnlyStackAndPc s (t.setPc w) := by
  obtain ⟨hfull, -⟩ |
    ⟨t, hpush, -, hsp, hslot, hv, hindex, -, hdt, hst, hmem, hfb, hkeys, hrnd, hcount⟩ := s.push_cases a
  · omega
  · refine ⟨t, hpush, by omega, ?_, fun j hj => ?_, fun w => ?_⟩
    · rw [hslot, if_pos h.symm]
    · rw [hslot, if_neg (by omega)]
    · have hregs : SameRegs s (t.setPc w) := fun r => by simp only [State.getV, State.setPc_v, hv]
      have hbytes : SameMem s (t.setPc w) := fun b => by simp only [State.readByte, State.setPc_mem, hmem]
      have hpixels : SameScreen s (t.setPc w) := fun x y _ _ => by
        simp only [State.pixel, State.setPc_fb, hfb]
      exact ⟨hregs, hindex, ⟨hdt, hst⟩, hbytes, hpixels, hkeys, hrnd, hcount⟩

/-! ## The instructions by their endings -/

theorem exec_jump (nnn : BitVec 12) (s : State) :
    exec (.jump nnn) s = .next (s.setPc (addressOperand nnn)) := rfl

theorem exec_call_of_push_none {s : State} (nnn : BitVec 12) (h : s.push s.npc = none) :
    exec (.call nnn) s = .fault .stackOverflow := by
  simp only [exec, execCall, h, raise_eq]

theorem exec_call_of_push_some {s t : State} (nnn : BitVec 12) (h : s.push s.npc = some t) :
    exec (.call nnn) s = .next (t.setPc (addressOperand nnn)) := by
  simp only [exec, execCall, h, completeAt_eq]

theorem exec_skipEqImm (x : Reg) (kk : Byte) (s : State) :
    exec (.skipEqImm x kk) s = skipIf (s.getV x == kk) s := rfl

theorem exec_skipNeqImm (x : Reg) (kk : Byte) (s : State) :
    exec (.skipNeqImm x kk) s = skipIf (s.getV x != kk) s := rfl

theorem exec_skipEqReg (x y : Reg) (s : State) :
    exec (.skipEqReg x y) s = skipIf (s.getV x == s.getV y) s := rfl

theorem exec_skipNeqReg (x y : Reg) (s : State) :
    exec (.skipNeqReg x y) s = skipIf (s.getV x != s.getV y) s := rfl

/-! ## The obligations -/

/-- Settles O11: jump writes the zero-extended address and nothing else. -/
theorem jumpGoesToNNN : Obligations.JumpGoesToNNN := by
  intro s nnn
  exact ⟨_, exec_jump nnn s, addressOperand_toNat nnn, onlyPc_setPc s _⟩

/-- Settles O12: call ends as its push does, at the depth the state has. -/
theorem callPushesNpc : Obligations.CallPushesNpc := by
  intro s nnn
  constructor
  · intro hfull
    exact exec_call_of_push_none nnn (s.push_eq_none s.npc hfull)
  · intro k hk
    obtain ⟨t, hpush, hsp, hslot, hothers, hframe⟩ := s.push_at_depth s.npc k hk
    exact ⟨_, exec_call_of_push_some nnn hpush, addressOperand_toNat nnn, hsp, hslot, hothers, hframe _⟩

/-- Settles O13: both are skips on a comparison of the register with the immediate. -/
theorem skipsOnImmediate : Obligations.SkipsOnImmediate := by
  intro s x kk
  rw [exec_skipEqImm, exec_skipNeqImm]
  exact ⟨skipIf_next_of_iff s (beq_iff_toNat_eq _ _), skipIf_next_of_iff s (bne_iff_toNat_ne _ _)⟩

/-- Settles O14: both are skips on a comparison of the two registers. -/
theorem skipsOnRegisters : Obligations.SkipsOnRegisters := by
  intro s x y
  rw [exec_skipEqReg, exec_skipNeqReg]
  exact ⟨skipIf_next_of_iff s (beq_iff_toNat_eq _ _), skipIf_next_of_iff s (bne_iff_toNat_ne _ _)⟩

end Sys2Proof.Machine
end

section
/-! PROOFS. Register load, arithmetic and logic (spec/41_load_and_alu.md): load-imm, add-imm and
random-and. -/

namespace Sys2Proof.Machine

/-! ## A plain register write -/

/-- What an instruction does that ends with one register write and no flag (R101 to R107). -/
theorem complete_setV_next (s : State) (x : Reg) (b : Byte) :
    ∃ t, complete (s.setV x b) = .next t ∧ t.getV x = b ∧ SameRegsBut x s t ∧ t.pc = s.pc + 2 ∧
      OnlyRegsAndPc s t := by
  refine ⟨_, complete_eq _, ?_, sameRegsBut_setV s _ x b, ?_, onlyRegsAndPc_setV s _ x b⟩
  · rw [State.getV_setPc, State.getV_setV_same]
  · rw [State.setPc_pc, State.npc_def, State.setV_pc]

/-! ## The random port (spec/10_state.md R22) -/

/-- The frame of random-and: a register write, then the port moves on, and nothing else. -/
theorem complete_setV_nextRnd (s : State) (x : Reg) (b : Byte) :
    ∃ t, complete (s.setV x b).nextRnd = .next t ∧ t.getV x = b ∧ SameRegsBut x s t ∧ t.pc = s.pc + 2 ∧
      t.index = s.index ∧ SameStack s t ∧ SameTimers s t ∧ SameMem s t ∧ SameScreen s t ∧
      t.keys = s.keys := by
  refine ⟨_, complete_eq _, ?_, fun r hr => ?_, ?_, rfl, ⟨rfl, fun _ => rfl⟩, ⟨rfl, rfl⟩, fun _ => rfl,
    fun _ _ _ _ => rfl, rfl⟩
  · rw [State.getV_setPc, State.getV_nextRnd, State.getV_setV_same]
  · rw [State.getV_setPc, State.getV_nextRnd, State.getV_setV_other s x r b hr]
  · rw [State.setPc_pc, State.npc_def, State.nextRnd_pc, State.setV_pc]

/-- A masked byte has no bit that the mask has clear. -/
theorem and_mask_and_not_mask (b kk : Byte) : b &&& kk &&& ~~~kk = 0 :=
  calc b &&& kk &&& ~~~kk
      = b &&& (kk &&& ~~~kk) := BitVec.and_assoc b kk (~~~kk)
    _ = b &&& 0 := by rw [BitVec.and_not_self]
    _ = 0 := BitVec.and_zero

/-! ## The instructions by their endings -/

theorem exec_loadImm (x : Reg) (kk : Byte) (s : State) :
    exec (.loadImm x kk) s = complete (s.setV x kk) := rfl

theorem exec_addImm (x : Reg) (kk : Byte) (s : State) :
    exec (.addImm x kk) s = complete (s.setV x (s.getV x + kk)) := rfl

theorem exec_randomAnd (x : Reg) (kk : Byte) (s : State) :
    exec (.randomAnd x kk) s = complete (s.setV x (s.rnd &&& kk)).nextRnd := rfl

/-! ## The obligations -/

/-- Settles O16: load-imm is a plain register write of the immediate, to VF as to any other register. -/
theorem loadImmWritesKK : Obligations.LoadImmWritesKK := by
  intro s x kk
  rw [exec_loadImm]
  exact complete_setV_next s x kk

/-- Settles O17: add-imm is a plain register write of the sum of two bytes, which wraps modulo 256. -/
theorem addImmWrapsWithoutFlag : Obligations.AddImmWrapsWithoutFlag := by
  intro s x kk
  rw [exec_addImm]
  obtain ⟨t, hnext, hx, hothers, hpc, hframe⟩ := complete_setV_next s x (s.getV x + kk)
  refine ⟨t, hnext, ?_, hothers, hpc, hframe⟩
  rw [hx, BitVec.toNat_add]

/-- Settles O22: what random-and leaves in the register is the byte on the port under the mask. -/
theorem randomAndMasksThePort : Obligations.RandomAndMasksThePort := by
  intro s x kk
  rw [exec_randomAnd]
  obtain ⟨t, hnext, hx, hframe⟩ := complete_setV_nextRnd s x (s.rnd &&& kk)
  refine ⟨t, hnext, hx, ?_, fun hkk => ?_, hframe⟩
  · rw [hx, and_mask_and_not_mask]
  · rw [hx, hkk]
    exact BitVec.and_zero

end Sys2Proof.Machine
end

section
/-! PROOFS. The index register (spec/42_index_and_memory.md): load-index and font-char-address. -/

namespace Sys2Proof.Machine

/-! ## A plain write of the index register -/

/-- What an instruction does that ends with one write of the index register (R120 to R122). -/
theorem complete_setIndex_next (s : State) (i : Word) :
    ∃ t, complete (s.setIndex i) = .next t ∧ t.index = i ∧ t.pc = s.pc + 2 ∧ OnlyIndexAndPc s t := by
  refine ⟨_, complete_eq _, ?_, ?_, onlyIndexAndPc_setIndex s _ i⟩
  · rw [State.setPc_index, State.setIndex_index]
  · rw [State.setPc_pc, State.npc_def, State.setIndex_pc]

/-! ## The glyph addresses (spec/42_index_and_memory.md R122) -/

/-- Masking a byte with 0x0F leaves its low nibble, a number below 16. -/
theorem toNat_and_lowNibble (b : Byte) : (b &&& 0x0F).toNat = b.toNat % 16 := by
  rw [BitVec.toNat_and]
  exact Nat.and_two_pow_sub_one_eq_mod b.toNat 4

/-- The address of a glyph as a number: it stays far below the wrap at 16 bits. -/
theorem State.glyphAddress_toNat (s : State) (x : Reg) :
    (s.glyphAddress x).toNat = 0x0050 + 5 * ((s.getV x).toNat % 16) := by
  unfold State.glyphAddress Config.fontBase
  rw [toNat_and_lowNibble, BitVec.toNat_ofNat, Nat.mod_eq_of_lt (by omega)]

/-! ## The instructions by their endings -/

theorem exec_loadIndex (nnn : BitVec 12) (s : State) :
    exec (.loadIndex nnn) s = complete (s.setIndex (addressOperand nnn)) := rfl

theorem exec_fontCharAddress (x : Reg) (s : State) :
    exec (.fontCharAddress x) s = complete (s.setIndex (s.glyphAddress x)) := rfl

/-! ## The obligations -/

/-- Settles O23: load-index is a plain write of the zero-extended address to the index register. -/
theorem loadIndexWritesNNN : Obligations.LoadIndexWritesNNN := by
  intro s nnn
  rw [exec_loadIndex]
  obtain ⟨t, hnext, hindex, hframe⟩ := complete_setIndex_next s (addressOperand nnn)
  refine ⟨t, hnext, ?_, hframe⟩
  rw [hindex, addressOperand_toNat]

/-- Settles O25: font-char-address is a plain write of the glyph's address, and the low nibble bounds it. -/
theorem fontCharAddressFindsTheGlyph : Obligations.FontCharAddressFindsTheGlyph := by
  intro s x
  rw [exec_fontCharAddress]
  obtain ⟨t, hnext, hindex, hframe⟩ := complete_setIndex_next s (s.glyphAddress x)
  have haddress : t.index.toNat = 0x0050 + 5 * ((s.getV x).toNat % 16) := by
    rw [hindex, State.glyphAddress_toNat]
  exact ⟨t, hnext, haddress, by omega, hframe⟩

end Sys2Proof.Machine
end

section
/-! PROOFS. The display (spec/43_display.md): clear-screen. -/

namespace Sys2Proof.Machine

/-! ## A plain write of the framebuffer -/

/-- The frame of a framebuffer write that leaves every register, VF included. -/
theorem onlyScreenRegsAndPc_setFb (s : State) (w : Word) (fb : Frame) :
    OnlyScreenRegsAndPc s ((s.setFb fb).setPc w) :=
  ⟨rfl, ⟨rfl, fun _ => rfl⟩, ⟨rfl, rfl⟩, fun _ => rfl, rfl, rfl, rfl⟩

/-- What an instruction does that ends with one write of the framebuffer and no flag (R140). -/
theorem complete_setFb_next (s : State) (fb : Frame) :
    ∃ t, complete (s.setFb fb) = .next t ∧ (∀ x y, t.pixel x y = fb.pixel x y) ∧ SameRegs s t ∧
      t.pc = s.pc + 2 ∧ OnlyScreenRegsAndPc s t := by
  refine ⟨_, complete_eq _, fun x y => ?_, fun r => ?_, ?_, onlyScreenRegsAndPc_setFb s _ fb⟩
  · rw [State.pixel_setPc, State.pixel_setFb]
  · rw [State.getV_setPc, State.getV_setFb]
  · rw [State.setPc_pc, State.npc_def, State.setFb_pc]

/-! ## The instruction by its ending -/

theorem exec_clearScreen (s : State) : exec .clearScreen s = complete (s.setFb Frame.clear) := rfl

/-! ## The obligation -/

/-- Settles O29: clear-screen is a plain write of the clear framebuffer, which has no set pixel. -/
theorem clearScreenZeroesTheFrame : Obligations.ClearScreenZeroesTheFrame := by
  intro s
  rw [exec_clearScreen]
  obtain ⟨t, hnext, hpixels, hframe⟩ := complete_setFb_next s Frame.clear
  refine ⟨t, hnext, fun x y _ _ => ?_, hframe⟩
  rw [hpixels, Frame.pixel_clear]

end Sys2Proof.Machine
end

section
/-! PROOFS. The timers (spec/44_keys_and_timers.md): get-delay, set-delay and set-sound. -/

namespace Sys2Proof.Machine

/-! ## The timers under a tick, and the tone -/

/-- One tick as a number: truncated subtraction is the clamp at zero (R181). -/
theorem countDown_toNat (b : Byte) : (countDown b).toNat = b.toNat - 1 := by
  unfold countDown
  split
  next hzero => rw [hzero]; rfl
  next hnonzero =>
    have hone : (1 : Byte) ≤ b := Nat.one_le_iff_ne_zero.mpr (BitVec.toNat_ne.mp hnonzero)
    exact BitVec.toNat_sub_of_le hone

/-- The tone is the sound timer being nonzero (R183). -/
theorem State.tone_iff_st_ne_zero (s : State) : s.tone = true ↔ s.st ≠ 0 := by
  have hzero : s.st = 0 ↔ s.st.toNat = 0 := BitVec.toNat_eq
  rw [State.tone, decide_eq_true_iff, Ne, hzero]
  exact Nat.pos_iff_ne_zero

/-! ## A plain write of a timer -/

/-- The frame of a write of both timers; a write of one gives the other the value it has. -/
theorem onlyTimersAndPc_setDt_setSt (s : State) (w : Word) (dt st : Byte) :
    OnlyTimersAndPc s (((s.setDt dt).setSt st).setPc w) :=
  ⟨fun _ => rfl, rfl, ⟨rfl, fun _ => rfl⟩, fun _ => rfl, fun _ _ _ _ => rfl, rfl, rfl, rfl⟩

/-- What an instruction does that ends with one write of the delay timer (R154). -/
theorem complete_setDt_next (s : State) (b : Byte) :
    ∃ t, complete (s.setDt b) = .next t ∧ t.dt = b ∧ t.st = s.st ∧ t.pc = s.pc + 2 ∧
      OnlyTimersAndPc s t := by
  refine ⟨_, complete_eq _, ?_, ?_, ?_, onlyTimersAndPc_setDt_setSt s _ b s.st⟩
  · rw [State.setPc_dt, State.setDt_dt]
  · rw [State.setPc_st, State.setDt_st]
  · rw [State.setPc_pc, State.npc_def, State.setDt_pc]

/-- What an instruction does that ends with one write of the sound timer (R155). -/
theorem complete_setSt_next (s : State) (b : Byte) :
    ∃ t, complete (s.setSt b) = .next t ∧ t.st = b ∧ t.dt = s.dt ∧ t.pc = s.pc + 2 ∧
      OnlyTimersAndPc s t := by
  refine ⟨_, complete_eq _, ?_, ?_, ?_, onlyTimersAndPc_setDt_setSt s _ s.dt b⟩
  · rw [State.setPc_st, State.setSt_st]
  · rw [State.setPc_dt, State.setSt_dt]
  · rw [State.setPc_pc, State.npc_def, State.setSt_pc]

/-! ## The instructions by their endings -/

theorem exec_getDelay (x : Reg) (s : State) :
    exec (.getDelay x) s = complete (s.setV x s.dt) := rfl

theorem exec_setDelay (x : Reg) (s : State) :
    exec (.setDelay x) s = complete (s.setDt (s.getV x)) := rfl

theorem exec_setSound (x : Reg) (s : State) :
    exec (.setSound x) s = complete (s.setSt (s.getV x)) := rfl

/-! ## The obligations -/

/-- Settles O36: get-delay is a plain register write of the delay timer. -/
theorem getDelayReadsDT : Obligations.GetDelayReadsDT := by
  intro s x
  rw [exec_getDelay]
  exact complete_setV_next s x s.dt

/-- Settles O37: set-delay is a plain write of the delay timer, and the tick counts the new value down. -/
theorem setDelayWritesDT : Obligations.SetDelayWritesDT := by
  intro s x
  rw [exec_setDelay]
  obtain ⟨t, hnext, hdt, hst, hpc, hframe⟩ := complete_setDt_next s (s.getV x)
  refine ⟨t, hnext, hdt, hst, hpc, hframe, ?_⟩
  rw [State.tick_dt, hdt, countDown_toNat]

/-- Settles O38: set-sound is a plain write of the sound timer, which the tone follows. -/
theorem setSoundWritesST : Obligations.SetSoundWritesST := by
  intro s x
  rw [exec_setSound]
  obtain ⟨t, hnext, hst, hdt, hpc, hframe⟩ := complete_setSt_next s (s.getV x)
  refine ⟨t, hnext, hst, hdt, hpc, hframe, ?_⟩
  rw [State.tone_iff_st_ne_zero, hst]

end Sys2Proof.Machine
end

section
/-! PROOFS. The faults of the instructions (spec/60_exceptions.md): the two stack faults. -/

namespace Sys2Proof.Machine

/-! ## Return by its pop -/

/-- An empty stack answers no pop. -/
theorem State.pop_eq_none (s : State) (h : s.sp.val = 0) : s.pop = none := by
  obtain ⟨-, hnone⟩ | ⟨-, -, -, hpos, -⟩ := s.pop_cases
  · exact hnone
  · omega

theorem exec_ret_of_pop_none {s : State} (h : s.pop = none) :
    exec .ret s = .fault .stackUnderflow := by
  simp only [exec, execRet, h, raise_eq]

theorem exec_ret_of_pop_some {s t : State} {target : Word} (h : s.pop = some (target, t)) :
    exec .ret s = .next (t.setPc target) := by
  simp only [exec, execRet, h, completeAt_eq]

/-! ## What a fault of one instruction says -/

/-- Return faults on an empty stack only, and with no other fault (R173). -/
theorem exec_ret_fault {s : State} {f : Fault} (h : exec .ret s = .fault f) :
    s.sp.val = 0 ∧ f = .stackUnderflow := by
  obtain ⟨hempty, hnone⟩ | ⟨target, t, hpop, -⟩ := s.pop_cases
  · rw [exec_ret_of_pop_none hnone] at h
    cases h
    exact ⟨hempty, rfl⟩
  · rw [exec_ret_of_pop_some hpop] at h
    cases h

/-- Call faults on a full stack only, and with no other fault (R172). -/
theorem exec_call_fault {s : State} {nnn : BitVec 12} {f : Fault}
    (h : exec (.call nnn) s = .fault f) : s.sp.val = 16 ∧ f = .stackOverflow := by
  obtain ⟨hfull, hnone⟩ | ⟨t, hpush, -⟩ := s.push_cases s.npc
  · rw [exec_call_of_push_none nnn hnone] at h
    cases h
    exact ⟨hfull, rfl⟩
  · rw [exec_call_of_push_some nnn hpush] at h
    cases h

/-- A range-checked operation that else completes faults out of range only, with the offending address
(R174). -/
theorem withRange_complete_fault {base : Word} {len : Nat} {t : State} {f : Fault}
    (h : withRange base len (complete t) = .fault f) :
    inRange base len = false ∧ f = .addressOutOfRange (offendingAddress base) := by
  cases hrange : inRange base len
  · rw [withRange_out _ hrange] at h
    cases h
    exact ⟨rfl, rfl⟩
  · rw [withRange_in _ hrange] at h
    cases h

/-- Wait-for-key suspends or completes; it never faults (spec/44_keys_and_timers.md R152). -/
theorem exec_waitForKey_ne_fault (x : Reg) (s : State) (f : Fault) :
    exec (.waitForKey x) s ≠ .fault f := by
  unfold exec execWaitForKey
  cases s.firstKey <;> exact nofun

/-! ## What a fault of any instruction says -/

/-- An instruction faults as call on a full stack, as return on an empty one, or out of range of an access
from the index register; the instructions that only complete have no fault. -/
theorem exec_fault_cases {i : Instr} {s : State} {f : Fault} (h : exec i s = .fault f) :
    ((∃ nnn, i = .call nnn) ∧ s.sp.val = 16 ∧ f = .stackOverflow) ∨
    (i = .ret ∧ s.sp.val = 0 ∧ f = .stackUnderflow) ∨
    f = .addressOutOfRange (offendingAddress s.index) := by
  cases i with
  | call nnn => exact .inl ⟨⟨nnn, rfl⟩, exec_call_fault h⟩
  | ret => exact .inr (.inl ⟨rfl, exec_ret_fault h⟩)
  | draw | storeBcd | registerDump | registerLoad => exact .inr (.inr (withRange_complete_fault h).2)
  | waitForKey x => exact absurd h (exec_waitForKey_ne_fault x s f)
  | _ => cases h

/-! ## The obligation -/

/-- Settles O44: the faults of an instruction differ from one another, so its fault tells which case it is. -/
theorem stackFaultsExactlyWhen : Obligations.StackFaultsExactlyWhen := by
  intro i s
  refine ⟨⟨fun h => ?_, ?_⟩, ⟨fun h => ?_, ?_⟩⟩
  · obtain ⟨hcall, hfull, -⟩ | ⟨-, -, hf⟩ | hf := exec_fault_cases h
    · exact ⟨hcall, hfull⟩
    · cases hf
    · cases hf
  · rintro ⟨⟨nnn, rfl⟩, hfull⟩
    exact exec_call_of_push_none nnn (s.push_eq_none s.npc hfull)
  · obtain ⟨-, -, hf⟩ | ⟨hret, hempty, -⟩ | hf := exec_fault_cases h
    · cases hf
    · exact ⟨hret, hempty⟩
    · cases hf
  · rintro ⟨rfl, hempty⟩
    exact exec_ret_of_pop_none (s.pop_eq_none hempty)

end Sys2Proof.Machine
end

section
/-! PROOFS. The decoder and the encoder (spec/30_encoding.md R60 to R68, R71): the round trip, the illegal
words and the opcode map. -/

namespace Sys2Proof

/-! ## Words with known selectors -/

theorem fieldC_eq_of_toNat {w : Word} {k : Nat} (h : (fieldC w).toNat = k) : fieldC w = BitVec.ofNat 4 k := by
  rw [← h, BitVec.ofNat_toNat, BitVec.setWidth_eq]

theorem wordNNN_of_class {w : Word} {k : Nat} (hc : (fieldC w).toNat = k) :
    wordNNN (BitVec.ofNat 4 k) (fieldNNN w) = w := by
  rw [← fieldC_eq_of_toNat hc, word_eq_wordNNN]

theorem wordXKK_of_class {w : Word} {k : Nat} (hc : (fieldC w).toNat = k) :
    wordXKK (BitVec.ofNat 4 k) (regOf (fieldX w)) (fieldKK w) = w := by
  rw [← fieldC_eq_of_toNat hc, word_eq_wordXKK]

theorem wordXYN_of_class {w : Word} {k n : Nat} (hc : (fieldC w).toNat = k) (hn : (fieldN w).toNat = n) :
    wordXYN (BitVec.ofNat 4 k) (regOf (fieldX w)) (regOf (fieldY w)) (BitVec.ofNat 4 n) = w := by
  rw [← fieldC_eq_of_toNat hc, ← hn, BitVec.ofNat_toNat, BitVec.setWidth_eq, word_eq_wordXYN]

/-! ## What each class decodes to is encoded back (R65) -/

theorem encode_of_decodeClass0 {w : Word} {i : Instr} (h : decodeClass0 w = some i) :
    i.wf = true ∧ encode i = w := by
  unfold decodeClass0 at h
  split_ifs at h with h1 h2 <;> cases h
  · exact ⟨rfl, h1.symm⟩
  · exact ⟨rfl, h2.symm⟩

theorem encode_of_decodeClass8 {x y : Reg} {n : Nat} {i : Instr} (h : decodeClass8 x y n = some i) :
    i.wf = true ∧ encode i = wordXYN 0x8 x y (BitVec.ofNat 4 n) := by
  unfold decodeClass8 at h
  split at h <;> cases h <;> exact ⟨rfl, rfl⟩

theorem encode_of_decodeClassE {x : Reg} {kk : Byte} {i : Instr} (h : decodeClassE x kk = some i) :
    i.wf = true ∧ encode i = wordXKK 0xE x kk := by
  unfold decodeClassE at h
  split_ifs at h with h1 h2 <;> cases h <;> subst kk <;> exact ⟨rfl, rfl⟩

theorem encode_of_decodeClassF {x : Reg} {kk : Byte} {i : Instr} (h : decodeClassF x kk = some i) :
    i.wf = true ∧ encode i = wordXKK 0xF x kk := by
  unfold decodeClassF at h
  split_ifs at h <;> cases h <;> subst kk <;> exact ⟨rfl, rfl⟩

/-- Every word that decodes is the word of what it decodes to. -/
theorem encode_of_decode {w : Word} {i : Instr} (h : decode w = some i) : i.wf = true ∧ encode i = w := by
  unfold decode at h
  split at h
  case h_1 hc => exact encode_of_decodeClass0 h
  case h_9 hc =>
    obtain ⟨hwf, henc⟩ := encode_of_decodeClass8 h
    exact ⟨hwf, henc.trans (wordXYN_of_class hc rfl)⟩
  case h_15 hc =>
    obtain ⟨hwf, henc⟩ := encode_of_decodeClassE h
    exact ⟨hwf, henc.trans (wordXKK_of_class hc)⟩
  case h_16 hc =>
    obtain ⟨hwf, henc⟩ := encode_of_decodeClassF h
    exact ⟨hwf, henc.trans (wordXKK_of_class hc)⟩
  case h_6 hc | h_10 hc =>
    simp only [Option.ite_none_right_eq_some, Option.some.injEq] at h
    obtain ⟨hn, rfl⟩ := h
    exact ⟨rfl, wordXYN_of_class hc hn⟩
  case h_14 hc =>
    cases h
    exact ⟨decide_eq_true (Nat.le_of_lt_succ (fieldN w).isLt), wordXYN_of_class hc rfl⟩
  case h_2 hc | h_3 hc | h_11 hc | h_12 hc =>
    cases h
    exact ⟨rfl, wordNNN_of_class hc⟩
  case h_4 hc | h_5 hc | h_7 hc | h_8 hc | h_13 hc =>
    cases h
    exact ⟨rfl, wordXKK_of_class hc⟩
  case h_17 => cases h

/-- The decoder reads back what the encoder wrote, draw's count within its field (R63). -/
theorem decode_of_encode {i : Instr} (h : i.wf = true) : decode (encode i) = some i := by
  cases i with
  | clearScreen | ret => rfl
  | draw x y n =>
    have hn : n % 16 = n := Nat.mod_eq_of_lt (Nat.lt_succ_of_le (of_decide_eq_true h))
    simp [encode, decode, hn]
  | skipKeyPressed | skipKeyNotPressed => simp [encode, decode, decodeClassE]
  | getDelay | waitForKey | setDelay | setSound | addToIndex | fontCharAddress | storeBcd | registerDump
  | registerLoad => simp [encode, decode, decodeClassF]
  | _ => simp [encode, decode, decodeClass8]

theorem decodeTableWord_toNat (w : Word) : decodeTableWord 16 w.toNat = decode w := by
  unfold decodeTableWord decodeBytes
  have hw : BitVec.ofNat 16 (w.toNat % 2 ^ 16) = w := by
    rw [Nat.mod_eq_of_lt w.isLt, BitVec.ofNat_toNat, BitVec.setWidth_eq]
  simp only [le_refl, if_true, hw, wordOfBytes_bytes]
  cases decode w <;> rfl

/-! ## The selectors as numbers (R61) -/

theorem fieldC_toNat (w : Word) : (fieldC w).toNat = w.toNat / 4096 := by
  have hw : w.toNat < 65536 := w.isLt
  rw [fieldC, BitVec.extractLsb'_toNat, Nat.shiftRight_eq_div_pow]
  omega

theorem fieldN_toNat (w : Word) : (fieldN w).toNat = w.toNat % 16 := by
  rw [fieldN, BitVec.extractLsb'_toNat, Nat.shiftRight_zero]

theorem fieldKK_toNat (w : Word) : (fieldKK w).toNat = w.toNat % 256 := by
  rw [fieldKK, BitVec.extractLsb'_toNat, Nat.shiftRight_zero]

/-! ## What each class refuses (R66) -/

/-- One selector of a chain: none comes out when it is not met and the rest of the chain has none. -/
theorem ite_some_eq_none_iff {p : Prop} [Decidable p] (i : Instr) (rest : Option Instr) :
    (if p then some i else rest) = none ↔ ¬p ∧ rest = none := by
  split_ifs with hp <;> simp [hp]

theorem decodeClass0_eq_none_iff (w : Word) :
    decodeClass0 w = none ↔ w.toNat ≠ 0x00E0 ∧ w.toNat ≠ 0x00EE := by
  simp [decodeClass0, ite_some_eq_none_iff, BitVec.toNat_eq]

theorem decodeClass8_eq_none_iff (x y : Reg) (n : Nat) (h : n < 16) :
    decodeClass8 x y n = none ↔ n ∈ [8, 9, 0xA, 0xB, 0xC, 0xD, 0xF] := by
  interval_cases n <;> simp [decodeClass8]

theorem decodeClassE_eq_none_iff (x : Reg) (kk : Byte) :
    decodeClassE x kk = none ↔ kk.toNat ∉ [0x9E, 0xA1] := by
  simp [decodeClassE, ite_some_eq_none_iff, BitVec.toNat_eq]

theorem decodeClassF_eq_none_iff (x : Reg) (kk : Byte) :
    decodeClassF x kk = none ↔
      kk.toNat ∉ [0x07, 0x0A, 0x15, 0x18, 0x1E, 0x29, 0x33, 0x55, 0x65] := by
  simp [decodeClassF, ite_some_eq_none_iff, BitVec.toNat_eq]

/-- The illegal words, class by class: what the selector of the class refuses. -/
theorem decode_eq_none_iff (w : Word) : decode w = none ↔
    ((fieldC w).toNat = 0 ∧ w.toNat ≠ 0x00E0 ∧ w.toNat ≠ 0x00EE) ∨
    ((fieldC w).toNat = 5 ∧ (fieldN w).toNat ≠ 0) ∨
    ((fieldC w).toNat = 8 ∧ (fieldN w).toNat ∈ [8, 9, 0xA, 0xB, 0xC, 0xD, 0xF]) ∨
    ((fieldC w).toNat = 9 ∧ (fieldN w).toNat ≠ 0) ∨
    ((fieldC w).toNat = 0xE ∧ (fieldKK w).toNat ∉ [0x9E, 0xA1]) ∨
    ((fieldC w).toNat = 0xF ∧
      (fieldKK w).toNat ∉ [0x07, 0x0A, 0x15, 0x18, 0x1E, 0x29, 0x33, 0x55, 0x65]) := by
  have hlt : (fieldC w).toNat < 16 := (fieldC w).isLt
  generalize hc : (fieldC w).toNat = c at hlt
  interval_cases c <;>
    simp [decode, hc, decodeClass0_eq_none_iff, decodeClass8_eq_none_iff _ _ _ (fieldN w).isLt,
      decodeClassE_eq_none_iff, decodeClassF_eq_none_iff]

/-! ## The opcode map (R65) -/

theorem fieldC_and (v w : Word) : fieldC (v &&& w) = fieldC v &&& fieldC w := BitVec.extractLsb'_and

theorem fieldN_and (v w : Word) : fieldN (v &&& w) = fieldN v &&& fieldN w := BitVec.extractLsb'_and

theorem fieldKK_and (v w : Word) : fieldKK (v &&& w) = fieldKK v &&& fieldKK w := BitVec.extractLsb'_and

/-- The word of every instruction matches the row of the instruction. -/
theorem row_covers_encode (i : Instr) : i.row.covers (encode i) = true := by
  cases i with
  | clearScreen | ret => rfl
  | jump | call | loadIndex | jumpOffset => exact beq_iff_eq.mpr (Laws.wordNNN_mask _ _)
  | skipEqImm | skipNeqImm | loadImm | addImm | randomAnd => exact beq_iff_eq.mpr (Laws.wordXKK_mask _ _ _)
  | draw => exact beq_iff_eq.mpr (Laws.wordXYN_mask _ _ _ _)
  | skipEqReg | assign | orReg | andReg | xorReg | addReg | subReg | shiftRight | subnReg | shiftLeft
  | skipNeqReg => exact beq_iff_eq.mpr (Laws.wordXYN_maskSelector _ _ _ _)
  | _ => exact beq_iff_eq.mpr (Laws.wordXKK_maskSelector _ _ _)

theorem row_mem_opcodeMap (i : Instr) : i.row ∈ opcodeMap := by
  cases i <;> simp [opcodeMap, Instr.row]

/-- Two rows that agree in the bits both fix are one row. -/
theorem row_eq_of_agree : ∀ r ∈ opcodeMap, ∀ r' ∈ opcodeMap,
    r.pattern &&& r'.mask = r'.pattern &&& r.mask → r = r' := by decide

/-- No word matches two rows: they would agree in the bits both fix. -/
theorem row_eq_of_covers {w : Word} {r r' : Row} (hr : r ∈ opcodeMap) (hr' : r' ∈ opcodeMap)
    (h : r.covers w = true) (h' : r'.covers w = true) : r = r' := by
  have hw : w &&& r.mask = r.pattern := beq_iff_eq.mp h
  have hw' : w &&& r'.mask = r'.pattern := beq_iff_eq.mp h'
  apply row_eq_of_agree r hr r' hr'
  rw [← hw, ← hw', BitVec.and_assoc, BitVec.and_assoc, BitVec.and_comm r.mask]

/-- Each row fixes the class and what selects in that class, and its pattern is a legal word. -/
theorem row_fixes_selectors : ∀ r ∈ opcodeMap,
    fieldC r.mask = 0xF ∧ ((fieldC r.pattern).toNat = 0 → r.mask = 0xFFFF) ∧
    ((fieldC r.pattern).toNat ∈ [5, 8, 9] → fieldN r.mask = 0xF) ∧
    ((fieldC r.pattern).toNat ∈ [0xE, 0xF] → fieldKK r.mask = 0xFF) ∧ decode r.pattern ≠ none := by
  decide

/-- A word of a row decodes, since it has the class and the selectors of the pattern of the row. -/
theorem decode_ne_none_of_covers {r : Row} (hr : r ∈ opcodeMap) {w : Word} (h : r.covers w = true) :
    decode w ≠ none := by
  have hw : w &&& r.mask = r.pattern := beq_iff_eq.mp h
  obtain ⟨hmaskC, hmask, hmaskN, hmaskKK, hpattern⟩ := row_fixes_selectors r hr
  have hc : fieldC r.pattern = fieldC w := by
    rw [← hw, fieldC_and, hmaskC]
    exact BitVec.and_allOnes
  have hn (hsel : (fieldC w).toNat ∈ [5, 8, 9]) : fieldN r.pattern = fieldN w := by
    rw [← hw, fieldN_and, hmaskN (hc ▸ hsel)]
    exact BitVec.and_allOnes
  have hkk (hsel : (fieldC w).toNat ∈ [0xE, 0xF]) : fieldKK r.pattern = fieldKK w := by
    rw [← hw, fieldKK_and, hmaskKK (hc ▸ hsel)]
    exact BitVec.and_allOnes
  have hword (hsel : (fieldC w).toNat = 0) : r.pattern = w := by
    rw [← hw, hmask (hc ▸ hsel)]
    exact BitVec.and_allOnes
  intro hnone
  apply hpattern
  rw [decode_eq_none_iff] at hnone ⊢
  rw [hc]
  obtain ⟨h0, hill⟩ | ⟨h5, hill⟩ | ⟨h8, hill⟩ | ⟨h9, hill⟩ | ⟨hE, hill⟩ | ⟨hF, hill⟩ := hnone
  · rw [hword h0]
    exact .inl ⟨h0, hill⟩
  · rw [hn (by simp [h5])]
    exact .inr (.inl ⟨h5, hill⟩)
  · rw [hn (by simp [h8])]
    exact .inr (.inr (.inl ⟨h8, hill⟩))
  · rw [hn (by simp [h9])]
    exact .inr (.inr (.inr (.inl ⟨h9, hill⟩)))
  · rw [hkk (by simp [hE])]
    exact .inr (.inr (.inr (.inr (.inl ⟨hE, hill⟩))))
  · rw [hkk (by simp [hF])]
    exact .inr (.inr (.inr (.inr (.inr ⟨hF, hill⟩))))

/-! ## The obligations -/

/-- Settles O7: the fields of an assembled word are the operands it was assembled from. -/
theorem decodeOfEncode : Obligations.DecodeOfEncode := by
  intro i hwf
  have hdec := decode_of_encode hwf
  exact ⟨hdec, (decodeBytes_ok_iff _ _).mpr hdec, (decodeTableWord_toNat _).trans hdec⟩

/-- Settles O8: every word is assembled from its fields, and decoding keeps them all. -/
theorem encodeOfDecode : Obligations.EncodeOfDecode := fun _ _ => encode_of_decode

/-- Settles O5: the class and the selectors of a word as quotient and remainders of its number. -/
theorem illegalWordsAreExactly : Obligations.IllegalWordsAreExactly := by
  intro w
  rw [decode_eq_none_iff, fieldC_toNat, fieldN_toNat, fieldKK_toNat]

/-- Settles O6: a word that decodes is the word of its instruction, so it matches that row; a word of a row
has a selector that decodes; and the rows are disjoint. -/
theorem decoderAgreesWithOpcodeMap : Obligations.DecoderAgreesWithOpcodeMap := by
  refine ⟨fun w i hdec => ?_, fun w hdec r hr => ?_, fun w r r' => row_eq_of_covers⟩
  · obtain ⟨-, rfl⟩ := encode_of_decode hdec
    exact ⟨row_mem_opcodeMap i, row_covers_encode i⟩
  · exact Bool.eq_false_iff.mpr fun hcov => decode_ne_none_of_covers hr hcov hdec

/-- Settles O4: each word is evaluated by the decoder. -/
theorem sampleWordsDecode : Obligations.SampleWordsDecode := by
  unfold Obligations.SampleWordsDecode
  decide

end Sys2Proof
end

section
/-! PROOFS. Control transfer (spec/40_control_transfer.md): return and jump-offset. -/

namespace Sys2Proof.Machine

/-! ## Popping the call stack (spec/10_state.md R16) -/

/-- A pop at depth `k + 1` answers slot `k`, and leaves every slot and the rest of the machine as it was. -/
theorem State.pop_at_depth (s : State) (k : Fin 16) (h : s.sp.val = k.val + 1) :
    ∃ t, s.pop = some (s.stack[k], t) ∧ t.sp.val = k.val ∧ t.stack = s.stack ∧
      ∀ w, OnlyStackAndPc s (t.setPc w) := by
  obtain ⟨hempty, -⟩ |
    ⟨a, t, hpop, -, hsp, htop, hslots, hv, hindex, -, hdt, hst, hmem, hfb, hkeys, hrnd, hcount⟩ := s.pop_cases
  · omega
  · refine ⟨t, by rw [hpop, htop k h.symm], by omega, hslots, fun w => ?_⟩
    have hregs : SameRegs s (t.setPc w) := fun r => by simp only [State.getV, State.setPc_v, hv]
    have hbytes : SameMem s (t.setPc w) := fun b => by simp only [State.readByte, State.setPc_mem, hmem]
    have hpixels : SameScreen s (t.setPc w) := fun x y _ _ => by
      simp only [State.pixel, State.setPc_fb, hfb]
    exact ⟨hregs, hindex, ⟨hdt, hst⟩, hbytes, hpixels, hkeys, hrnd, hcount⟩

/-! ## The target of jump-offset (R87) -/

theorem State.wideV_toNat (s : State) (x : Reg) : (s.wideV x).toNat = (s.getV x).toNat :=
  BitVec.toNat_setWidth_of_le (by decide)

/-- A 12-bit address and a byte have a sum far below the wrap at 16 bits. -/
theorem State.offsetTarget_toNat (s : State) (nnn : BitVec 12) :
    (s.offsetTarget nnn).toNat = nnn.toNat + (s.getV 0).toNat := by
  have hnnn : nnn.toNat < 4096 := nnn.isLt
  have hbyte : (s.getV 0).toNat < 256 := (s.getV 0).isLt
  rw [State.offsetTarget, BitVec.toNat_add, addressOperand_toNat, State.wideV_toNat,
    Nat.mod_eq_of_lt (by omega)]

theorem exec_jumpOffset (nnn : BitVec 12) (s : State) :
    exec (.jumpOffset nnn) s = .next (s.setPc (s.offsetTarget nnn)) := rfl

/-! ## The obligations -/

/-- Settles O10: return ends as its pop does, at the depth the state has. -/
theorem returnPopsTheStack : Obligations.ReturnPopsTheStack := by
  intro s
  constructor
  · intro hempty
    exact exec_ret_of_pop_none (s.pop_eq_none hempty)
  · intro k hk
    obtain ⟨t, hpop, hsp, hslots, hframe⟩ := s.pop_at_depth k hk
    refine ⟨_, exec_ret_of_pop_some hpop, rfl, hsp, fun j => ?_, hframe _⟩
    rw [State.setPc_stack, hslots]

/-- Settles O15: jump-offset writes the sum, which does not reach the wrap, and nothing else. -/
theorem jumpOffsetAddsV0 : Obligations.JumpOffsetAddsV0 := by
  intro s nnn
  exact ⟨_, exec_jumpOffset nnn s, s.offsetTarget_toNat nnn, onlyPc_setPc s _⟩

end Sys2Proof.Machine
end

section
/-! PROOFS. Arithmetic and logic with a flag (spec/41_load_and_alu.md): the logic operations, the additions,
the subtractions and the shifts on registers. -/

namespace Sys2Proof.Machine

/-! ## A register write with a flag -/

/-- What an instruction does that ends with a result in `Vx` and then a flag in VF (R101). -/
theorem complete_setVFlag_next (s : State) (x : Reg) (b : Byte) (c : Bool) :
    ∃ t, complete (s.setVFlag x b c) = .next t ∧ (x ≠ 15 → t.getV x = b) ∧ t.getV 15 = flagByte c ∧
      SameRegsButFlag x s t ∧ t.pc = s.pc + 2 ∧ OnlyRegsAndPc s t := by
  refine ⟨_, complete_eq _, fun hx => ?_, ?_, sameRegsButFlag_setVFlag s _ x b c, ?_,
    onlyRegsAndPc_setVFlag s _ x b c⟩
  · rw [State.getV_setPc, State.getV_setVFlag_result s x b c hx]
  · rw [State.getV_setPc]
    exact State.getV_setVFlag_flag s x b c
  · rw [State.setPc_pc, State.npc_def, State.setVFlag_pc]

/-! ## Flags and results as numbers (R100) -/

/-- A flag decided by a proposition is 1 when it holds and 0 when not. -/
theorem flagByte_decide_toNat (p : Prop) [Decidable p] :
    (flagByte (decide p)).toNat = if p then 1 else 0 := by
  by_cases hp : p <;> simp [flagByte, hp]

/-- A flag that is bit `i` of a byte is that binary digit of its number. -/
theorem flagByte_getLsbD_toNat (a : Byte) (i : Nat) :
    (flagByte (a.getLsbD i)).toNat = a.toNat / 2 ^ i % 2 := by
  rw [BitVec.getLsbD, Nat.testBit_eq_decide_div_mod_eq, flagByte_decide_toNat]
  split_ifs with hbit <;> omega

/-- A difference of bytes is the integer difference modulo 256. -/
theorem toNat_sub_eq_emod (a b : Byte) : ((a - b).toNat : Int) = ((a.toNat : Int) - b.toNat) % 256 := by
  have hb : b.toNat < 256 := b.isLt
  rw [BitVec.toNat_sub]
  omega

theorem toNat_shiftRight_one (a : Byte) : (a >>> 1).toNat = a.toNat / 2 := by
  rw [BitVec.toNat_ushiftRight, Nat.shiftRight_eq_div_pow, Nat.pow_one]

theorem toNat_shiftLeft_one (a : Byte) : (a <<< 1).toNat = 2 * a.toNat % 256 := by
  rw [BitVec.toNat_shiftLeft, Nat.shiftLeft_eq, Nat.pow_one, Nat.mul_comm]

/-! ## The instructions by their endings -/

theorem exec_assign (x y : Reg) (s : State) :
    exec (.assign x y) s = complete (s.setV x (s.getV y)) := rfl

theorem exec_orReg (x y : Reg) (s : State) :
    exec (.orReg x y) s = complete (s.setV x (s.getV x ||| s.getV y)) := rfl

theorem exec_andReg (x y : Reg) (s : State) :
    exec (.andReg x y) s = complete (s.setV x (s.getV x &&& s.getV y)) := rfl

theorem exec_xorReg (x y : Reg) (s : State) :
    exec (.xorReg x y) s = complete (s.setV x (s.getV x ^^^ s.getV y)) := rfl

theorem exec_addReg (x y : Reg) (s : State) :
    exec (.addReg x y) s =
      complete (s.setVFlag x (s.getV x + s.getV y) (carryFlag (s.getV x) (s.getV y))) := rfl

theorem exec_subReg (x y : Reg) (s : State) :
    exec (.subReg x y) s =
      complete (s.setVFlag x (s.getV x - s.getV y) (noBorrowFlag (s.getV x) (s.getV y))) := rfl

theorem exec_subnReg (x y : Reg) (s : State) :
    exec (.subnReg x y) s =
      complete (s.setVFlag x (s.getV y - s.getV x) (noBorrowFlag (s.getV y) (s.getV x))) := rfl

theorem exec_shiftRight (x y : Reg) (s : State) :
    exec (.shiftRight x y) s = complete (s.setVFlag x (s.getV x >>> 1) (outRightFlag (s.getV x))) := rfl

theorem exec_shiftLeft (x y : Reg) (s : State) :
    exec (.shiftLeft x y) s = complete (s.setVFlag x (s.getV x <<< 1) (outLeftFlag (s.getV x))) := rfl

/-- What a subtraction `a - b` into `Vx` does (R109, R111). -/
theorem complete_sub_next (s : State) (x : Reg) (a b : Byte) :
    ∃ t, complete (s.setVFlag x (a - b) (noBorrowFlag a b)) = .next t ∧
      (x ≠ 15 → ((t.getV x).toNat : Int) = ((a.toNat : Int) - b.toNat) % 256) ∧
      (t.getV 15).toNat = (if a.toNat ≥ b.toNat then 1 else 0) ∧
      SameRegsButFlag x s t ∧ t.pc = s.pc + 2 ∧ OnlyRegsAndPc s t := by
  obtain ⟨t, hnext, hresult, hflag, hframe⟩ := complete_setVFlag_next s x (a - b) (noBorrowFlag a b)
  refine ⟨t, hnext, fun hx => ?_, ?_, hframe⟩
  · rw [hresult hx, toNat_sub_eq_emod]
  · rw [hflag, noBorrowFlag, flagByte_decide_toNat]

/-! ## The obligations -/

/-- Settles O18: each is a plain register write, to VF as to any other register. -/
theorem logicWritesVxOnly : Obligations.LogicWritesVxOnly := by
  intro s x y
  rw [exec_assign, exec_orReg, exec_andReg, exec_xorReg]
  exact ⟨complete_setV_next s x _, complete_setV_next s x _, complete_setV_next s x _,
    complete_setV_next s x _⟩

/-- Settles O19: the sum of two bytes wraps modulo 256, and the flag says whether it did. -/
theorem addRegSumAndCarry : Obligations.AddRegSumAndCarry := by
  intro s x y
  rw [exec_addReg]
  obtain ⟨t, hnext, hresult, hflag, hframe⟩ :=
    complete_setVFlag_next s x (s.getV x + s.getV y) (carryFlag (s.getV x) (s.getV y))
  refine ⟨t, hnext, fun hx => ?_, ?_, hframe⟩
  · rw [hresult hx, BitVec.toNat_add]
  · rw [hflag, carryFlag, flagByte_decide_toNat]

/-- Settles O20: both are one subtraction, with the operands in either order. -/
theorem subtractionsAndNoBorrow : Obligations.SubtractionsAndNoBorrow := by
  intro s x y
  rw [exec_subReg, exec_subnReg]
  exact ⟨complete_sub_next s x (s.getV x) (s.getV y), complete_sub_next s x (s.getV y) (s.getV x)⟩

/-- Settles O21: a shift by one halves or doubles, and the flag is the binary digit that falls out. -/
theorem shiftsByOneIgnoreY : Obligations.ShiftsByOneIgnoreY := by
  intro s x y
  refine ⟨?_, ?_, rfl, rfl⟩
  · obtain ⟨t, hnext, hresult, hflag, hframe⟩ :=
      complete_setVFlag_next s x (s.getV x >>> 1) (outRightFlag (s.getV x))
    refine ⟨t, fun y' => hnext, fun hx => ?_, ?_, hframe⟩
    · rw [hresult hx, toNat_shiftRight_one]
    · rw [hflag, outRightFlag, flagByte_getLsbD_toNat, Nat.pow_zero, Nat.div_one]
  · obtain ⟨t, hnext, hresult, hflag, hframe⟩ :=
      complete_setVFlag_next s x (s.getV x <<< 1) (outLeftFlag (s.getV x))
    refine ⟨t, fun y' => hnext, fun hx => ?_, ?_, hframe⟩
    · rw [hresult hx, toNat_shiftLeft_one]
    · have hbyte : (s.getV x).toNat < 256 := (s.getV x).isLt
      rw [hflag, outLeftFlag, flagByte_getLsbD_toNat]
      omega

end Sys2Proof.Machine
end

section
/-! PROOFS. The index register and memory (spec/42_index_and_memory.md, spec/20_memory.md): add-to-index, the
three transfers through `I`, and the canonical form. -/

namespace Sys2Proof.Machine

/-! ## The range check (spec/20_memory.md R44) -/

theorem inRange_eq_false_iff (base : Word) (len : Nat) :
    inRange base len = false ↔ 0 < len ∧ 0x1000 < base.toNat + len := by
  rw [← Bool.not_eq_true, inRange_iff]
  omega

/-- The offending address is the one with the number `max(base, 0x1000)`. -/
theorem eq_offendingAddress_iff (a base : Word) :
    a = offendingAddress base ↔ a.toNat = max base.toNat 0x1000 := by
  rw [BitVec.toNat_eq, offendingAddress_toNat]

/-- Out of range, a range-checked operation faults with the number `max(base, 0x1000)`. -/
theorem withRange_fault {base : Word} {len : Nat} (k : Answer) (hlen : 0 < len)
    (h : 0x1000 < base.toNat + len) :
    ∃ a : Word, a.toNat = max base.toNat 0x1000 ∧ withRange base len k = .fault (.addressOutOfRange a) :=
  ⟨_, offendingAddress_toNat base, withRange_out k ((inRange_eq_false_iff base len).mpr ⟨hlen, h⟩)⟩

/-! ## A plain store -/

/-- What an instruction does that ends with a store of bytes in range (R45). -/
theorem complete_writeBytes_next (s : State) (a : Nat) (bs : List Byte) (h : a + bs.length ≤ 0x1000) :
    ∃ t, complete (s.setMem (s.mem.writeBytes a bs)) = .next t ∧
      (∀ k (hk : k < bs.length), t.readByte (a + k) = bs[k]) ∧ SameMemOutside a bs.length s t ∧
      t.pc = s.pc + 2 ∧ OnlyMemAndPc s t := by
  refine ⟨_, complete_eq _, fun k hk => ?_, fun b hb => ?_, ?_, onlyMemAndPc_setMem s _ _⟩
  · rw [State.readByte_setPc, State.readByte_setMem]
    exact Memory.read_writeBytes_inside s.mem a k bs hk h
  · rw [State.readByte_setPc, State.readByte_setMem]
    exact Memory.read_writeBytes_outside s.mem a b bs hb
  · rw [State.setPc_pc, State.npc_def, State.setMem_pc]

/-! ## The instructions by their endings -/

theorem exec_addToIndex (x : Reg) (s : State) :
    exec (.addToIndex x) s = complete (s.setIndex (s.index + s.wideV x)) := rfl

theorem exec_storeBcd (x : Reg) (s : State) :
    exec (.storeBcd x) s = withRange s.index 3
      (complete (s.setMem (s.mem.writeBytes s.index.toNat (bcdDigits (s.getV x))))) := rfl

theorem exec_registerDump (x : Reg) (s : State) :
    exec (.registerDump x) s = withRange s.index (x.val + 1)
      (complete (s.setMem (s.mem.writeBytes s.index.toNat (s.regsUpTo x)))) := rfl

theorem exec_registerLoad (x : Reg) (s : State) :
    exec (.registerLoad x) s = withRange s.index (x.val + 1) (complete (s.setRegs (s.loadedRegs x))) := rfl

/-! ## The canonical form of memory -/

/-- A canonical memory lists no address below the one it starts from. -/
theorem Memory.lookup_eq_none_of_wfFrom {lo : Nat} {m : Memory} (h : Memory.wfFrom lo m = true) {a : Nat}
    (ha : a < lo) : m.lookup a = none := by
  induction m generalizing lo with
  | nil => rfl
  | cons c m ih =>
    obtain ⟨k, b⟩ := c
    simp only [Memory.wfFrom, Bool.and_eq_true, decide_eq_true_eq] at h
    obtain ⟨⟨⟨hk, -⟩, -⟩, hm⟩ := h
    rw [Memory.lookup, if_neg (by omega)]
    exact ih hm (by omega)

theorem Memory.head_le_of_lookup {k a : Nat} {b d : Byte} {m : Memory} (hm : Memory.wfFrom (k + 1) m = true)
    (h : Memory.lookup ((k, b) :: m) a = some d) : k ≤ a := by
  by_contra hlt
  rw [Memory.lookup, if_neg (by omega), Memory.lookup_eq_none_of_wfFrom hm (by omega)] at h
  cases h

/-- The head of a canonical memory is its least listed address, so it can be read off the lookups. -/
theorem Memory.eq_of_lookup_eq {lo : Nat} {m m' : Memory} (h : Memory.wfFrom lo m = true)
    (h' : Memory.wfFrom lo m' = true) (heq : ∀ a, m.lookup a = m'.lookup a) : m = m' := by
  induction m generalizing lo m' with
  | nil =>
    cases m' with
    | nil => rfl
    | cons c m' => simpa [Memory.lookup] using heq c.1
  | cons c m ih =>
    obtain ⟨k, b⟩ := c
    cases m' with
    | nil => simpa [Memory.lookup] using heq k
    | cons c' m' =>
      obtain ⟨k', b'⟩ := c'
      simp only [Memory.wfFrom, Bool.and_eq_true, decide_eq_true_eq] at h h'
      obtain ⟨-, hm⟩ := h
      obtain ⟨-, hm'⟩ := h'
      have hk : k = k' := Nat.le_antisymm
        (Memory.head_le_of_lookup hm ((heq k').trans (if_pos rfl)))
        (Memory.head_le_of_lookup hm' ((heq k).symm.trans (if_pos rfl)))
      subst hk
      have hb : b = b' := by simpa [Memory.lookup] using heq k
      subst hb
      have htails (a : Nat) : Memory.lookup m a = Memory.lookup m' a := by
        by_cases ha : k = a
        · rw [Memory.lookup_eq_none_of_wfFrom hm (by omega), Memory.lookup_eq_none_of_wfFrom hm' (by omega)]
        · simpa [Memory.lookup, ha] using heq a
      rw [ih hm hm' htails]

/-! ## The obligations -/

/-- Settles O24: add-to-index is a plain write of the 16-bit sum to the index register. -/
theorem addToIndexWrapsAt16Bits : Obligations.AddToIndexWrapsAt16Bits := by
  intro s x
  rw [exec_addToIndex]
  obtain ⟨t, hnext, hindex, hframe⟩ := complete_setIndex_next s (s.index + s.wideV x)
  refine ⟨t, hnext, ?_, hframe⟩
  rw [hindex, BitVec.toNat_add, State.wideV_toNat]

/-- Settles O26: in range store-bcd is a plain store of the three digits, each below 256. -/
theorem storeBcdWritesThreeDigits : Obligations.StoreBcdWritesThreeDigits := by
  intro s x
  rw [exec_storeBcd]
  constructor
  · intro h
    rw [withRange_in _ ((inRange_iff _ _).mpr (by omega))]
    obtain ⟨t, hnext, hbytes, hframe⟩ := complete_writeBytes_next s s.index.toNat (bcdDigits (s.getV x)) (by
      rw [bcdDigits_length]
      omega)
    have hv : (s.getV x).toNat < 256 := (s.getV x).isLt
    refine ⟨t, hnext, ?_, ?_, ?_, hframe⟩
    · rw [← Nat.add_zero s.index.toNat, hbytes 0 (by rw [bcdDigits_length]; decide)]
      exact Nat.mod_eq_of_lt (by omega)
    · rw [hbytes 1 (by rw [bcdDigits_length]; decide)]
      exact Nat.mod_eq_of_lt (by omega)
    · rw [hbytes 2 (by rw [bcdDigits_length]; decide)]
      exact Nat.mod_eq_of_lt (by omega)
  · intro h
    exact withRange_fault _ (by decide) (by omega)

/-- Settles O27: in range register-dump is a plain store of the registers up to `Vx`. -/
theorem registerDumpStoresV0ToVx : Obligations.RegisterDumpStoresV0ToVx := by
  intro s x
  rw [exec_registerDump]
  constructor
  · intro h
    rw [withRange_in _ ((inRange_iff _ _).mpr (by omega))]
    obtain ⟨t, hnext, hbytes, houtside, hframe⟩ :=
      complete_writeBytes_next s s.index.toNat (s.regsUpTo x) (by
        rw [State.regsUpTo_length]
        omega)
    rw [State.regsUpTo_length] at houtside
    refine ⟨t, hnext, fun r hr => ?_, houtside, hframe⟩
    rw [hbytes r.val (by rw [State.regsUpTo_length]; exact Nat.lt_succ_of_le hr),
      State.regsUpTo_getElem]
  · intro h
    exact withRange_fault _ (by omega) (by omega)

/-- Settles O28: in range register-load is one write of the register file, which leaves those above `Vx`. -/
theorem registerLoadReadsV0ToVx : Obligations.RegisterLoadReadsV0ToVx := by
  intro s x
  rw [exec_registerLoad]
  constructor
  · intro h
    rw [withRange_in _ ((inRange_iff _ _).mpr (by omega))]
    refine ⟨_, complete_eq _, fun r hr => ?_, fun r hr => ?_, ?_, onlyRegsAndPc_setRegs s _ _⟩
    · rw [State.getV_setPc, State.getV_setRegs_loadedRegs, if_pos hr]
    · rw [State.getV_setPc, State.getV_setRegs_loadedRegs, if_neg (not_le.mpr hr)]
    · rw [State.setPc_pc, State.npc_def, State.setRegs_pc]
  · intro h
    exact withRange_fault _ (by omega) (by omega)

/-- Settles O52: a canonical memory is the list of its lookups in rising order. -/
theorem canonicalMemoriesAreEqualData : Obligations.CanonicalMemoriesAreEqualData :=
  fun _ _ h h' heq => Memory.eq_of_lookup_eq h h' heq

end Sys2Proof.Machine
end

section
/-! PROOFS. Keys, the tick and the outputs (spec/44_keys_and_timers.md, spec/60_exceptions.md). -/

namespace Sys2Proof.Machine

/-! ## The instructions by their endings -/

theorem exec_skipKeyPressed (x : Reg) (s : State) :
    exec (.skipKeyPressed x) s = skipIf (s.keyDown (s.keyOperand x)) s := rfl

theorem exec_skipKeyNotPressed (x : Reg) (s : State) :
    exec (.skipKeyNotPressed x) s = skipIf (!s.keyDown (s.keyOperand x)) s := rfl

theorem exec_waitForKey_of_none {s : State} (x : Reg) (h : s.firstKey = none) :
    exec (.waitForKey x) s = .next s := by
  simp only [exec, execWaitForKey, h, suspend_eq]

theorem exec_waitForKey_of_some {s : State} (x : Reg) {k : Fin 16} (h : s.firstKey = some k) :
    exec (.waitForKey x) s = complete (s.setV x (keyByte k)) := by
  simp only [exec, execWaitForKey, h]

theorem keyByte_toNat (k : Fin 16) : (keyByte k).toNat = k.val := by
  rw [keyByte, BitVec.toNat_ofNat, Nat.mod_eq_of_lt (by omega)]

/-! ## The frame of a tick (R181) -/

theorem State.onlyTimersAndPc_tick (s : State) : OnlyTimersAndPc s s.tick :=
  ⟨s.getV_tick, s.tick_index, ⟨s.tick_sp, fun _ => rfl⟩, s.readByte_tick, fun x y _ _ => s.pixel_tick x y,
    s.tick_keys, s.tick_rnd, s.tick_rndCount⟩

/-! ## The obligations -/

/-- Settles O34: both are skips on the flag of the key that the register's low nibble names. -/
theorem keySkipsTestTheLevel : Obligations.KeySkipsTestTheLevel := by
  intro s x k hk
  have hkey : s.keyOperand x = k := Fin.ext ((s.keyOperand_val x).trans hk.symm)
  rw [exec_skipKeyPressed, exec_skipKeyNotPressed, hkey]
  exact ⟨skipIf_next_of_iff s Iff.rfl, skipIf_next_of_iff s (by rw [State.keyDown, Bool.not_eq_true'])⟩

/-- Settles O35: the search for the first key down decides between a wait and a plain register write. -/
theorem waitForKeyStoresTheLeastKey : Obligations.WaitForKeyStoresTheLeastKey := by
  intro s x
  constructor
  · intro hnone
    exact exec_waitForKey_of_none x ((s.firstKey_none).mpr hnone)
  · intro k hdown hleast
    rw [exec_waitForKey_of_some x ((s.firstKey_some k).mpr ⟨hdown, hleast⟩)]
    obtain ⟨t, hnext, hx, hframe⟩ := complete_setV_next s x (keyByte k)
    exact ⟨t, hnext, by rw [hx, keyByte_toNat], hframe⟩

/-- Settles O39: the tick counts each timer down by itself and leaves the rest of the machine. -/
theorem tickCountsDownAndStopsAtZero : Obligations.TickCountsDownAndStopsAtZero := by
  intro s
  rw [State.tick_dt, State.tick_st, countDown_toNat, countDown_toNat]
  exact ⟨fun _ => rfl, fun h => by omega, fun _ => rfl, fun h => by omega, s.onlyTimersAndPc_tick, s.tick_pc⟩

/-- Settles O41: the tone is decided by the timer; quotient and remainder of an index give row and column. -/
theorem outputsFollowTheState : Obligations.OutputsFollowTheState := by
  intro s
  refine ⟨decide_eq_true_iff, by rw [State.framebufferPort, List.length_map, List.length_range],
    fun x y hx hy => ?_⟩
  have hcolumn : (y * 64 + x) % 64 = x := by omega
  have hrow : (y * 64 + x) / 64 = y := by omega
  rw [State.framebufferPort, List.getElem?_map, List.getElem?_range (by omega), Option.map_some, hcolumn, hrow]

end Sys2Proof.Machine
end

section
/-! PROOFS. Rules over all instructions (spec/10_state.md, spec/60_exceptions.md): what each leaves unchanged,
when it faults, where it leaves the program counter and VF, and what it does not read. -/

namespace Sys2Proof.Machine

/-! ## A push and a pop that succeed (spec/10_state.md R16) -/

theorem State.push_some {s t : State} {a : Word} (h : s.push a = some t) :
    t.sp.val = s.sp.val + 1 ∧ (∀ k : Fin 16, t.stack[k] = if k.val = s.sp.val then a else s.stack[k]) ∧
      t.v = s.v ∧ t.index = s.index ∧ t.dt = s.dt ∧ t.st = s.st ∧ t.mem = s.mem ∧ t.fb = s.fb ∧
      t.keys = s.keys := by
  obtain ⟨-, hnone⟩ |
    ⟨u, hsome, -, hsp, hslots, hv, hindex, -, hdt, hst, hmem, hfb, hkeys, -⟩ := s.push_cases a
  · cases h.symm.trans hnone
  · cases h.symm.trans hsome
    exact ⟨hsp, hslots, hv, hindex, hdt, hst, hmem, hfb, hkeys⟩

theorem State.pop_some {s t : State} {target : Word} (h : s.pop = some (target, t)) :
    0 < s.sp.val ∧ t.sp.val = s.sp.val - 1 ∧ (∀ k : Fin 16, k.val + 1 = s.sp.val → target = s.stack[k]) ∧
      t.stack = s.stack ∧ t.v = s.v ∧ t.index = s.index ∧ t.dt = s.dt ∧ t.st = s.st ∧ t.mem = s.mem ∧
      t.fb = s.fb ∧ t.keys = s.keys := by
  obtain ⟨-, hnone⟩ |
    ⟨a, u, hsome, hpos, hsp, htop, hslots, hv, hindex, -, hdt, hst, hmem, hfb, hkeys, -⟩ := s.pop_cases
  · cases h.symm.trans hnone
  · cases h.symm.trans hsome
    exact ⟨hpos, hsp, htop, hslots, hv, hindex, hdt, hst, hmem, hfb, hkeys⟩

/-! ## What an instruction that completes answers: the ones that can end in more than one way -/

theorem exec_call_next {s t : State} {nnn : BitVec 12} (h : exec (.call nnn) s = .next t) :
    ∃ u, s.push s.npc = some u ∧ t = u.setPc (addressOperand nnn) := by
  cases hpush : s.push s.npc with
  | none =>
    rw [exec_call_of_push_none nnn hpush] at h
    cases h
  | some u =>
    rw [exec_call_of_push_some nnn hpush] at h
    cases h
    exact ⟨u, rfl, rfl⟩

theorem exec_ret_next {s t : State} (h : exec .ret s = .next t) :
    ∃ target u, s.pop = some (target, u) ∧ t = u.setPc target := by
  cases hpop : s.pop with
  | none =>
    rw [exec_ret_of_pop_none hpop] at h
    cases h
  | some p =>
    obtain ⟨target, u⟩ := p
    rw [exec_ret_of_pop_some hpop] at h
    cases h
    exact ⟨target, u, rfl, rfl⟩

theorem exec_waitForKey_next {s t : State} {x : Reg} (h : exec (.waitForKey x) s = .next t) :
    (s.firstKey = none ∧ t = s) ∨
      ∃ k, s.firstKey = some k ∧ t = (s.setV x (keyByte k)).setPc s.npc := by
  cases hkey : s.firstKey with
  | none =>
    rw [exec_waitForKey_of_none x hkey] at h
    cases h
    exact .inl ⟨rfl, rfl⟩
  | some k =>
    rw [exec_waitForKey_of_some x hkey] at h
    cases h
    exact .inr ⟨k, rfl, rfl⟩

/-- A range-checked instruction that answers next has completed. -/
theorem withRange_complete_next {base : Word} {len : Nat} {u t : State}
    (h : withRange base len (complete u) = .next t) : inRange base len = true ∧ t = u.setPc u.npc := by
  obtain ⟨hrange, hnext⟩ := withRange_next h
  cases hnext
  exact ⟨hrange, rfl⟩

/-! ## What every instruction leaves unchanged -/

/-- The parts of the machine that an instruction may write, each with its writers. -/
structure KeepsAllButItsOwn (i : Instr) (s t : State) : Prop where
  mem : (∀ x, i ≠ .storeBcd x) → (∀ x, i ≠ .registerDump x) → t.mem = s.mem
  fb : (∀ x y n, i ≠ .draw x y n) → i ≠ .clearScreen → t.fb = s.fb
  stack : (∀ nnn, i ≠ .call nnn) → i ≠ .ret → t.stack = s.stack ∧ t.sp = s.sp
  dt : (∀ x, i ≠ .setDelay x) → t.dt = s.dt
  st : (∀ x, i ≠ .setSound x) → t.st = s.st
  index : (∀ nnn, i ≠ .loadIndex nnn) → (∀ x, i ≠ .addToIndex x) → (∀ x, i ≠ .fontCharAddress x) →
    t.index = s.index
  keys : t.keys = s.keys

/-- Each part that an instruction does not own is kept by the updates the instruction ends in. -/
theorem exec_next_keeps {i : Instr} {s t : State} (h : exec i s = .next t) : KeepsAllButItsOwn i s t := by
  cases i with
  | call nnn =>
    obtain ⟨u, hpush, rfl⟩ := exec_call_next h
    obtain ⟨-, -, -, hindex, hdt, hst, hmem, hfb, hkeys⟩ := State.push_some hpush
    exact ⟨fun _ _ => hmem, fun _ _ => hfb, fun hne => absurd rfl (hne nnn), fun _ => hdt, fun _ => hst,
      fun _ _ _ => hindex, hkeys⟩
  | ret =>
    obtain ⟨target, u, hpop, rfl⟩ := exec_ret_next h
    obtain ⟨-, -, -, -, -, hindex, hdt, hst, hmem, hfb, hkeys⟩ := State.pop_some hpop
    exact ⟨fun _ _ => hmem, fun _ _ => hfb, fun _ hne => absurd rfl hne, fun _ => hdt, fun _ => hst,
      fun _ _ _ => hindex, hkeys⟩
  | waitForKey x => obtain ⟨-, rfl⟩ | ⟨k, -, rfl⟩ := exec_waitForKey_next h <;> constructor <;> simp
  | draw | storeBcd | registerDump | registerLoad =>
    obtain ⟨-, rfl⟩ := withRange_complete_next h
    constructor <;> simp
  | _ =>
    cases h
    constructor <;> simp

/-! ## Faults and refusals -/

theorem withRange_complete_ne_refused (base : Word) (len : Nat) (u : State) (r : Refusal) :
    withRange base len (complete u) ≠ .refused r := by
  cases hrange : inRange base len
  · rw [withRange_out _ hrange]
    exact nofun
  · rw [withRange_in _ hrange]
    exact nofun

/-- Every instruction has a meaning in every state. -/
theorem exec_ne_refused (i : Instr) (s : State) (r : Refusal) : exec i s ≠ .refused r := by
  cases i with
  | call nnn =>
    cases hpush : s.push s.npc with
    | none => rw [exec_call_of_push_none nnn hpush]; exact nofun
    | some u => rw [exec_call_of_push_some nnn hpush]; exact nofun
  | ret =>
    cases hpop : s.pop with
    | none => rw [exec_ret_of_pop_none hpop]; exact nofun
    | some p => rw [exec_ret_of_pop_some hpop]; exact nofun
  | waitForKey x =>
    cases hkey : s.firstKey with
    | none => rw [exec_waitForKey_of_none x hkey]; exact nofun
    | some k => rw [exec_waitForKey_of_some x hkey]; exact nofun
  | draw | storeBcd | registerDump | registerLoad => exact withRange_complete_ne_refused _ _ _ r
  | _ => exact nofun

/-- A range-checked operation that else completes faults exactly out of range, with `max(base, 0x1000)`. -/
theorem withRange_complete_fault_iff (base : Word) (len : Nat) (u : State) (f : Fault) :
    withRange base len (complete u) = .fault f ↔
      ∃ a : Word, a.toNat = max base.toNat 0x1000 ∧ f = .addressOutOfRange a ∧
        0 < len ∧ 0x1000 < base.toNat + len := by
  constructor
  · intro h
    obtain ⟨hrange, hf⟩ := withRange_complete_fault h
    exact ⟨_, offendingAddress_toNat base, hf, (inRange_eq_false_iff base len).mp hrange⟩
  · rintro ⟨a, ha, rfl, hlen, hover⟩
    rw [withRange_out _ ((inRange_eq_false_iff base len).mpr ⟨hlen, hover⟩),
      (eq_offendingAddress_iff a base).mpr ha]

/-- When an instruction faults, and with what: the stack faults follow the depth, the address faults the range
check of the access. -/
theorem exec_fault_iff (i : Instr) (s : State) (f : Fault) : exec i s = .fault f ↔
    ((∃ nnn, i = .call nnn) ∧ s.sp.val = 16 ∧ f = .stackOverflow) ∨
    (i = .ret ∧ s.sp.val = 0 ∧ f = .stackUnderflow) ∨
    (∃ a : Word, a.toNat = max s.index.toNat 0x1000 ∧ f = .addressOutOfRange a ∧
      ((∃ x y n, i = .draw x y n ∧ 0 < n ∧ 0x0FFF < s.index.toNat + n - 1) ∨
       (∃ x, i = .storeBcd x ∧ 0x0FFF < s.index.toNat + 2) ∨
       (∃ x : Reg, (i = .registerDump x ∨ i = .registerLoad x) ∧ 0x0FFF < s.index.toNat + x.val))) := by
  constructor
  · intro h
    cases i with
    | call nnn => exact .inl ⟨⟨nnn, rfl⟩, exec_call_fault h⟩
    | ret => exact .inr (.inl ⟨rfl, exec_ret_fault h⟩)
    | draw x y n =>
      obtain ⟨a, ha, hf, hlen, hover⟩ := (withRange_complete_fault_iff _ _ _ _).mp h
      exact .inr (.inr ⟨a, ha, hf, .inl ⟨x, y, n, rfl, hlen, by omega⟩⟩)
    | storeBcd x =>
      obtain ⟨a, ha, hf, -, hover⟩ := (withRange_complete_fault_iff _ _ _ _).mp h
      exact .inr (.inr ⟨a, ha, hf, .inr (.inl ⟨x, rfl, by omega⟩)⟩)
    | registerDump x =>
      obtain ⟨a, ha, hf, -, hover⟩ := (withRange_complete_fault_iff _ _ _ _).mp h
      exact .inr (.inr ⟨a, ha, hf, .inr (.inr ⟨x, .inl rfl, by omega⟩)⟩)
    | registerLoad x =>
      obtain ⟨a, ha, hf, -, hover⟩ := (withRange_complete_fault_iff _ _ _ _).mp h
      exact .inr (.inr ⟨a, ha, hf, .inr (.inr ⟨x, .inr rfl, by omega⟩)⟩)
    | waitForKey x => exact absurd h (exec_waitForKey_ne_fault x s f)
    | _ => cases h
  · rintro (⟨⟨nnn, rfl⟩, hfull, rfl⟩ | ⟨rfl, hempty, rfl⟩ | ⟨a, ha, hf, hcase⟩)
    · exact exec_call_of_push_none nnn (s.push_eq_none s.npc hfull)
    · exact exec_ret_of_pop_none (s.pop_eq_none hempty)
    · obtain ⟨x, y, n, rfl, hlen, hover⟩ | ⟨x, rfl, hover⟩ | ⟨x, rfl | rfl, hover⟩ := hcase
      · exact (withRange_complete_fault_iff _ _ _ _).mpr ⟨a, ha, hf, hlen, by omega⟩
      · exact (withRange_complete_fault_iff _ _ _ _).mpr ⟨a, ha, hf, by decide, by omega⟩
      · exact (withRange_complete_fault_iff _ _ _ _).mpr ⟨a, ha, hf, Nat.succ_pos _, by omega⟩
      · exact (withRange_complete_fault_iff _ _ _ _).mpr ⟨a, ha, hf, Nat.succ_pos _, by omega⟩

/-! ## What an instruction does not read -/

/-- An answer with its next state changed; a fault or a refusal stays. -/
def mapNext (g : State → State) : Answer → Answer
  | .next t => .next (g t)
  | .fault f => .fault f
  | .refused r => .refused r

theorem withRange_mapNext {g : State → State} {base : Word} {len : Nat} {k k' : Answer}
    (h : k' = mapNext g k) : withRange base len k' = mapNext g (withRange base len k) := by
  subst h
  cases hrange : inRange base len
  · rw [withRange_out _ hrange, withRange_out _ hrange]
    rfl
  · rw [withRange_in _ hrange, withRange_in _ hrange]

/-- Other key flags change nothing else in what an instruction answers that reads no key. -/
theorem exec_setKeys {i : Instr} (hpressed : ∀ x, i ≠ .skipKeyPressed x)
    (hnot : ∀ x, i ≠ .skipKeyNotPressed x) (hwait : ∀ x, i ≠ .waitForKey x) (s : State)
    (k : Vector Bool 16) : exec i (s.setKeys k) = mapNext (fun t => t.setKeys k) (exec i s) := by
  cases i with
  | skipKeyPressed x => exact absurd rfl (hpressed x)
  | skipKeyNotPressed x => exact absurd rfl (hnot x)
  | waitForKey x => exact absurd rfl (hwait x)
  | call nnn =>
    have hnpc : (s.setKeys k).npc = s.npc := rfl
    simp only [exec, execCall, hnpc, State.push_setKeys]
    cases s.push s.npc <;> rfl
  | ret =>
    simp only [exec, execRet, State.pop_setKeys]
    cases s.pop <;> rfl
  | draw | storeBcd | registerDump | registerLoad => exact withRange_mapNext rfl
  | _ => rfl

/-- Another byte on the random port changes nothing else in what an instruction answers but random-and. -/
theorem exec_setRnd {i : Instr} (hrandom : ∀ x kk, i ≠ .randomAnd x kk) (s : State) (b : Byte) :
    exec i (s.setRnd b) = mapNext (fun t => t.setRnd b) (exec i s) := by
  cases i with
  | randomAnd x kk => exact absurd rfl (hrandom x kk)
  | waitForKey x =>
    have hkey : (s.setRnd b).firstKey = s.firstKey := rfl
    simp only [exec, execWaitForKey, hkey]
    cases s.firstKey <;> rfl
  | call nnn =>
    have hnpc : (s.setRnd b).npc = s.npc := rfl
    simp only [exec, execCall, hnpc, State.push_setRnd]
    cases s.push s.npc <;> rfl
  | ret =>
    simp only [exec, execRet, State.pop_setRnd]
    cases s.pop <;> rfl
  | draw | storeBcd | registerDump | registerLoad => exact withRange_mapNext rfl
  | _ => rfl

/-! ## The flag register and the program counter -/

theorem flagByte_eq_zero_or_one (c : Bool) : flagByte c = 0 ∨ flagByte c = 1 := by
  cases c
  · exact .inl rfl
  · exact .inr rfl

/-- VF after a write of another register. -/
theorem getV_flag_setV (s : State) (w : Word) {x : Reg} (b : Byte) (hx : x ≠ 15) :
    ((s.setV x b).setPc w).getV 15 = s.getV 15 := by
  rw [State.getV_setPc, State.getV_setV_other s x 15 b hx.symm]

/-- VF after a write of the flag register alone. -/
theorem getV_flag_setV_flag (s : State) (w : Word) (c : Bool) :
    ((s.setV flagReg (flagByte c)).setPc w).getV 15 = 0 ∨
      ((s.setV flagReg (flagByte c)).setPc w).getV 15 = 1 := by
  have hflag : ((s.setV flagReg (flagByte c)).setPc w).getV 15 = flagByte c := State.getV_setV_same _ _ _
  rw [hflag]
  exact flagByte_eq_zero_or_one c

theorem getV_flag_setRegs_loadedRegs (s : State) (w : Word) {x : Reg} (hx : x ≠ 15) :
    ((s.setRegs (s.loadedRegs x)).setPc w).getV 15 = s.getV 15 := by
  have hlt : x < 15 := lt_of_le_of_ne (Fin.le_last x) hx
  rw [State.getV_setPc, State.getV_setRegs_loadedRegs, if_neg (not_le.mpr hlt)]

theorem exec_next_flagRule {i : Instr} {s t : State} (h : exec i s = .next t) : FlagRule s t i := by
  cases i with
  | call nnn =>
    obtain ⟨u, hpush, rfl⟩ := exec_call_next h
    obtain ⟨-, -, hv, -⟩ := State.push_some hpush
    exact congrArg (fun v : Vector Byte 16 => v[(15 : Reg)]) hv
  | ret =>
    obtain ⟨target, u, hpop, rfl⟩ := exec_ret_next h
    obtain ⟨-, -, -, -, hv, -⟩ := State.pop_some hpop
    exact congrArg (fun v : Vector Byte 16 => v[(15 : Reg)]) hv
  | waitForKey x =>
    obtain ⟨-, rfl⟩ | ⟨k, -, rfl⟩ := exec_waitForKey_next h
    · exact fun _ => rfl
    · exact getV_flag_setV s _ _
  | addReg | subReg | subnReg | shiftRight | shiftLeft =>
    cases h
    exact getV_flag_setV_flag (s.setV _ _) _ _
  | draw =>
    obtain ⟨-, rfl⟩ := withRange_complete_next h
    exact getV_flag_setV_flag (s.setFb _) _ _
  | loadImm | addImm | assign | orReg | andReg | xorReg | getDelay =>
    cases h
    exact getV_flag_setV s _ _
  | randomAnd =>
    cases h
    exact getV_flag_setV s s.npc _
  | registerLoad =>
    obtain ⟨-, rfl⟩ := withRange_complete_next h
    exact getV_flag_setRegs_loadedRegs s _
  | storeBcd | registerDump =>
    obtain ⟨-, rfl⟩ := withRange_complete_next h
    rfl
  | _ =>
    cases h
    rfl

/-- Where a skip leaves the program counter, for the condition its rule states. -/
theorem skipIf_next_pc {s t : State} {c : Bool} {p : Prop} [Decidable p] (hc : c = true ↔ p)
    (h : skipIf c s = .next t) : t.pc = if p then s.pc + 2 + 2 else s.pc + 2 := by
  obtain ⟨u, hnext, hpc, -⟩ := skipIf_next_of_iff s hc
  cases h.symm.trans hnext
  exact hpc

/-- Where a skip leaves the program counter, for the condition under which it does not skip. -/
theorem skipIf_next_pc_not {s t : State} {c : Bool} {p : Prop} [Decidable p] (hc : c = true ↔ ¬p)
    (h : skipIf c s = .next t) : t.pc = if p then s.pc + 2 else s.pc + 2 + 2 := by
  rw [skipIf_next_pc hc h, ite_not]

theorem exec_next_pcRule {i : Instr} {s t : State} (h : exec i s = .next t) : PcRule s t i := by
  cases i with
  | jump nnn =>
    cases h
    exact addressOperand_toNat nnn
  | call nnn =>
    obtain ⟨u, -, rfl⟩ := exec_call_next h
    exact addressOperand_toNat nnn
  | jumpOffset nnn =>
    cases h
    have hnnn : nnn.toNat < 4096 := nnn.isLt
    have hbyte : (s.getV 0).toNat < 256 := (s.getV 0).isLt
    have htarget := s.offsetTarget_toNat nnn
    exact ⟨htarget, show (s.offsetTarget nnn).toNat ≤ 0x10FE by omega⟩
  | ret =>
    obtain ⟨target, u, hpop, rfl⟩ := exec_ret_next h
    obtain ⟨hpos, -, htop, -⟩ := State.pop_some hpop
    exact ⟨⟨s.sp.val - 1, by omega⟩, by simp only; omega, htop _ (by simp only; omega)⟩
  | skipEqImm x kk => exact skipIf_next_pc beq_iff_eq h
  | skipNeqImm x kk => exact skipIf_next_pc_not bne_iff_ne h
  | skipEqReg x y => exact skipIf_next_pc beq_iff_eq h
  | skipNeqReg x y => exact skipIf_next_pc_not bne_iff_ne h
  | skipKeyPressed x =>
    intro k hk
    obtain rfl : s.keyOperand x = k := Fin.ext ((s.keyOperand_val x).trans hk.symm)
    exact skipIf_next_pc Iff.rfl h
  | skipKeyNotPressed x =>
    intro k hk
    obtain rfl : s.keyOperand x = k := Fin.ext ((s.keyOperand_val x).trans hk.symm)
    exact skipIf_next_pc_not (by rw [Bool.not_eq_true', State.keyDown, Bool.not_eq_true]) h
  | waitForKey x =>
    obtain ⟨hnone, rfl⟩ | ⟨k, hsome, rfl⟩ := exec_waitForKey_next h
    · refine ⟨fun _ => rfl, fun ⟨k, hdown⟩ => ?_⟩
      cases hdown.symm.trans (t.firstKey_none.mp hnone k)
    · obtain ⟨hdown, -⟩ := (s.firstKey_some k).mp hsome
      refine ⟨fun hall => ?_, fun _ => rfl⟩
      cases hdown.symm.trans (hall k)
  | draw | storeBcd | registerDump | registerLoad =>
    obtain ⟨-, rfl⟩ := withRange_complete_next h
    rfl
  | _ =>
    cases h
    rfl

/-! ## The halt convention (spec/70_reset_and_hazards.md R208) -/

/-- A jump to its own address changes nothing. -/
theorem step_atHalt {s : State} (h : s.atHalt = true) : step s = .next s := by
  obtain ⟨nnn, hfetch, hself⟩ := s.atHalt_cases.mp h
  refine (step_next_iff s s).mpr ⟨_, hfetch, ?_⟩
  rw [exec_jump, hself]
  rfl

/-! ## The obligations -/

/-- Settles O42: every arm of exec completes, waits or faults, and so does fetching. -/
theorem noInstructionIsRefused : Obligations.NoInstructionIsRefused := by
  refine ⟨exec_ne_refused, fun s r => ?_⟩
  unfold step
  cases fetchInstr s with
  | ok i => exact exec_ne_refused i s r
  | error f => exact nofun

/-- Settles O43: the fault of an instruction follows the depth of the stack and the range of its access. -/
theorem instructionsFaultExactlyWhen : Obligations.InstructionsFaultExactlyWhen := exec_fault_iff

/-- Settles O45: the memory of every other instruction is the one it started from. -/
theorem onlyStoresWriteMemory : Obligations.OnlyStoresWriteMemory := by
  intro i s t h hbcd hdump
  have hmem := (exec_next_keeps h).mem hbcd hdump
  exact ⟨hmem, fun a => by rw [State.readByte, State.readByte, hmem]⟩

/-- Settles O46: the framebuffer of every other instruction is the one it started from. -/
theorem onlyDisplayWritesTheFrame : Obligations.OnlyDisplayWritesTheFrame := by
  intro i s t h hdraw hclear
  have hfb := (exec_next_keeps h).fb hdraw hclear
  exact ⟨hfb, fun x y _ _ => by rw [State.pixel, State.pixel, hfb]⟩

/-- Settles O47: each part has its writers, and every other instruction keeps it. -/
theorem whoWritesStackTimersAndIndex : Obligations.WhoWritesStackTimersAndIndex := by
  intro i s t h
  have hkeeps := exec_next_keeps h
  refine ⟨fun hcall hret => ?_, hkeeps.dt, hkeeps.st, hkeeps.index⟩
  obtain ⟨hstack, hsp⟩ := hkeeps.stack hcall hret
  exact ⟨hsp, fun k => by rw [hstack]⟩

/-- Settles O48: instruction by instruction, from what it writes last. -/
theorem whoWritesTheFlagRegister : Obligations.WhoWritesTheFlagRegister := fun _ _ _ => exec_next_flagRule

/-- Settles O49: instruction by instruction, from how it ends; a jump to itself writes the value pc has. -/
theorem whereThePcStands : Obligations.WhereThePcStands := by
  refine ⟨fun i s t => exec_next_pcRule, fun s => ?_, fun s => step_atHalt⟩
  simp only [State.atHalt_cases, fetchInstr_ok_iff, BitVec.toNat_eq, addressOperand_toNat, and_assoc,
    exists_and_left]

/-- Settles O50: the key flags are kept by every instruction and, but for three, carried through. -/
theorem keysReachThreeInstructionsOnly : Obligations.KeysReachThreeInstructionsOnly := by
  intro i s k
  refine ⟨fun t h => (exec_next_keeps h).keys, fun hpressed hnot hwait => ⟨fun t h => ?_, fun f h => ?_⟩⟩
  · rw [exec_setKeys hpressed hnot hwait, h, mapNext]
  · rw [exec_setKeys hpressed hnot hwait, h, mapNext]

/-- Settles O51: every instruction but random-and carries the byte on the port through. -/
theorem rndReachesRandomAndOnly : Obligations.RndReachesRandomAndOnly := by
  intro i s b hrandom
  refine ⟨fun t h => ?_, fun f h => ?_⟩
  · rw [exec_setRnd hrandom, h, mapNext]
  · rw [exec_setRnd hrandom, h, mapNext]

end Sys2Proof.Machine
end

section
/-! PROOFS. The step (spec/30_encoding.md R64) and the state after reset (spec/10_state.md R25). -/

namespace Sys2Proof.Machine

/-! ## A step by its fetch -/

theorem step_of_fetch_ok {s : State} {i : Instr} (h : fetchInstr s = .ok i) : step s = exec i s := by
  simp only [step, h]

theorem step_of_fetch_error {s : State} {f : Fault} (h : fetchInstr s = .error f) : step s = .fault f := by
  simp only [step, h]

/-- A step faults in its fetch, or in the instruction it fetched (R177). -/
theorem step_fault_iff (s : State) (f : Fault) :
    step s = .fault f ↔ fetchInstr s = .error f ∨ ∃ i, fetchInstr s = .ok i ∧ exec i s = .fault f := by
  cases h : fetchInstr s with
  | ok i => simp [step_of_fetch_ok h]
  | error g => simp [step_of_fetch_error h]

/-- The word placed at a program counter in range is the word fetched there. -/
theorem State.fetchWord_placeWord (s : State) (w : Word) (h : s.pc.toNat ≤ 0x0FFE) :
    (s.placeWord s.pc.toNat w).fetchWord = w := by
  have hroom : s.pc.toNat + [highByte w, lowByte w].length ≤ Config.memSize := Nat.add_le_add_right h 2
  have hhigh : (s.placeWord s.pc.toNat w).readByte s.pc.toNat = highByte w :=
    Memory.read_writeBytes_inside s.mem s.pc.toNat 0 [highByte w, lowByte w] Nat.zero_lt_two hroom
  have hlow : (s.placeWord s.pc.toNat w).readByte (s.pc.toNat + 1) = lowByte w :=
    Memory.read_writeBytes_inside s.mem s.pc.toNat 1 [highByte w, lowByte w] Nat.one_lt_two hroom
  have hpc : (s.placeWord s.pc.toNat w).pc = s.pc := rfl
  rw [State.fetchWord, hpc, hhigh, hlow, wordOfBytes_bytes]

theorem State.withFetchWord_toNat (s : State) (w : Word) :
    s.withFetchWord 16 w.toNat = s.placeWord s.pc.toNat w := by
  rw [State.withFetchWord, Nat.mod_eq_of_lt w.isLt, BitVec.ofNat_toNat, BitVec.setWidth_eq]

/-! ## The default font (spec/20_memory.md R42) -/

/-- Writing what reset put there lists nothing. -/
theorem Memory.writeBytes_nil_of_resetByte (a : Nat) (bs : List Byte)
    (h : ∀ k (hk : k < bs.length), resetByte (a + k) = some bs[k]) :
    Memory.writeBytes [] a bs = [] := by
  induction bs generalizing a with
  | nil => rfl
  | cons b bs ih =>
    have hhead : resetByte a = some b := h 0 (Nat.succ_pos _)
    have hwrite : Memory.write [] a b = [] := by
      unfold Memory.write
      split_ifs <;> rfl
    rw [Memory.writeBytes, hwrite]
    refine ih (a + 1) fun k hk => ?_
    rw [show a + 1 + k = a + (k + 1) by omega]
    exact h (k + 1) (Nat.succ_lt_succ hk)

theorem defaultFont_getElem (i : Nat) (h : i < 80) : defaultFont[i] = fontByte i := Vector.getElem_ofFn _

theorem State.reset_eq_resetWith_defaultFont : State.reset = State.resetWith defaultFont := by
  have hmem : Memory.writeBytes [] Config.fontBase defaultFont.toList = [] := by
    refine Memory.writeBytes_nil_of_resetByte _ _ fun k hk => ?_
    rw [Font.toList_length] at hk
    rw [Vector.getElem_toList, defaultFont_getElem k hk]
    exact resetByte_font k hk
  exact (congrArg State.reset.setMem hmem).symm

/-- The 80 bytes of the font region, as the table of R42 lists them. -/
theorem State.reset_font_bytes :
    (List.range 80).map (fun i => State.reset.readByte (0x050 + i)) = (List.range 80).map fontByte := by
  refine List.map_congr_left fun i hi => ?_
  have hi : i < 80 := List.mem_range.mp hi
  rw [State.reset_eq_resetWith_defaultFont, State.readByte_resetWith_font defaultFont i hi,
    defaultFont_getElem i hi]

/-! ## The obligations -/

/-- Settles O2: a fetch in range decodes the big-endian word, and the step is what exec answers. -/
theorem stepRunsTheDecodedInstruction : Obligations.StepRunsTheDecodedInstruction := by
  intro s i hpc hdec
  have hstep : step s = exec i s := step_of_fetch_ok ((fetchInstr_ok_iff s i).mpr ⟨hpc, hdec⟩)
  obtain ⟨hwf, -⟩ := encode_of_decode hdec
  exact ⟨hwf, hstep, hstep⟩

/-- Settles O3: the fetch faults on its range or on the word, and only a fetched instruction can fault. -/
theorem stepFaultsInTheFixedOrder : Obligations.StepFaultsInTheFixedOrder := by
  intro s f
  have haddress : f = .addressOutOfRange (offendingAddress s.pc) ↔
      ∃ a : Word, a.toNat = max s.pc.toNat 0x1000 ∧ f = .addressOutOfRange a := by
    simp only [← eq_offendingAddress_iff, exists_eq_left]
  rw [step_fault_iff, fetchInstr_error_iff, haddress, or_assoc]
  simp only [fetchInstr_ok_iff, and_assoc, exists_and_left]

/-- Settles O9: the two bytes stored are the two bytes read, and the decoder inverts the encoder. -/
theorem storedWordIsFetched : Obligations.StoredWordIsFetched := by
  intro s i hpc hwf
  have hword := s.fetchWord_placeWord (encode i) hpc
  rw [State.withFetchWord_toNat]
  refine ⟨hword, step_of_fetch_ok ((fetchInstr_ok_iff _ i).mpr ⟨hpc, ?_⟩)⟩
  rw [hword, decode_of_encode hwf]

/-- Settles O1: reset writes the font over the default one and clears the rest. -/
theorem resetLeavesTheStatedValues : Obligations.ResetLeavesTheStatedValues := by
  refine ⟨?_, State.reset_eq_resetWith_defaultFont, State.reset_font_bytes.trans (by decide)⟩
  rintro font s rfl
  exact ⟨fun r => Vector.getElem_replicate r.isLt, rfl, rfl, rfl, fun k => Vector.getElem_replicate k.isLt, rfl,
    rfl, rfl, Frame.pixel_clear, State.readByte_resetWith_font font,
    fun a _ => State.readByte_resetWith_outside font a⟩

end Sys2Proof.Machine
end

section
/-! PROOFS. The invariant (spec/10_state.md sections 5 and 6): canonical memory, the bound of the program
counter and of the occupied stack slots. -/

namespace Sys2Proof.Machine

/-! ## What keeps each clause -/

/-- Memory keeps its canonical form: only the two stores write it, byte by byte. -/
theorem exec_next_mem_wf {i : Instr} {s t : State} (h : exec i s = .next t) (hwf : s.mem.wf = true) :
    t.mem.wf = true := by
  cases i with
  | storeBcd | registerDump =>
    obtain ⟨-, rfl⟩ := withRange_complete_next h
    exact Memory.wf_writeBytes _ _ _ hwf
  | _ => exact (exec_next_keeps h).mem nofun nofun ▸ hwf

theorem pc_add_two_toNat {s : State} (h : s.pc.toNat ≤ 0x0FFE) : (s.pc + 2).toNat = s.pc.toNat + 2 := by
  rw [BitVec.toNat_add]
  exact Nat.mod_eq_of_lt (show s.pc.toNat + 2 < 65536 by omega)

theorem pc_add_four_toNat {s : State} (h : s.pc.toNat ≤ 0x0FFE) :
    (s.pc + 2 + 2).toNat = s.pc.toNat + 4 := by
  rw [BitVec.toNat_add, pc_add_two_toNat h]
  exact Nat.mod_eq_of_lt (show s.pc.toNat + 2 + 2 < 65536 by omega)

/-- From a program counter in range neither end of a skip wraps. -/
theorem skip_pc_le {s t : State} (h : s.pc.toNat ≤ 0x0FFE) {p : Prop} [Decidable p]
    (hpc : t.pc = if p then s.pc + 2 + 2 else s.pc + 2) : t.pc.toNat ≤ 0x10FE := by
  have htwo := pc_add_two_toNat h
  have hfour := pc_add_four_toNat h
  rw [hpc]
  split_ifs <;> omega

/-- The program counter after an instruction fetched in range is a value some rule writes (R15). -/
theorem exec_next_pc_le {i : Instr} {s t : State} (h : exec i s = .next t) (hpc : s.pc.toNat ≤ 0x0FFE)
    (hslots : ∀ k : Fin 16, k.val < s.sp.val → (s.stack[k]).toNat ≤ 0x1000) : t.pc.toNat ≤ 0x10FE := by
  have hrule := exec_next_pcRule h
  cases i with
  | jump nnn | call nnn =>
    have hnnn : nnn.toNat < 4096 := nnn.isLt
    have htarget : t.pc.toNat = nnn.toNat := hrule
    omega
  | jumpOffset nnn => exact hrule.2
  | ret =>
    obtain ⟨k, hk, htop⟩ := hrule
    have hslot := hslots k (by omega)
    rw [htop]
    omega
  | skipEqImm | skipEqReg => exact skip_pc_le hpc hrule
  | skipNeqImm | skipNeqReg => exact skip_pc_le hpc (hrule.trans (ite_not _ _ _).symm)
  | skipKeyPressed x => exact skip_pc_le hpc (hrule (s.keyOperand x) (s.keyOperand_val x))
  | skipKeyNotPressed x =>
    exact skip_pc_le hpc ((hrule (s.keyOperand x) (s.keyOperand_val x)).trans (ite_not _ _ _).symm)
  | waitForKey x =>
    obtain ⟨-, rfl⟩ | ⟨k, -, rfl⟩ := exec_waitForKey_next h
    · omega
    · have hnpc := pc_add_two_toNat hpc
      exact show (s.pc + 2).toNat ≤ 0x10FE by omega
  | _ =>
    have hnpc := pc_add_two_toNat hpc
    have hnext : t.pc = s.pc + 2 := hrule
    rw [hnext]
    omega

/-- Every occupied slot holds an earlier npc: call pushes one, return only gives slots up (R80, R82). -/
theorem exec_next_slots_le {i : Instr} {s t : State} (h : exec i s = .next t) (hpc : s.pc.toNat ≤ 0x0FFE)
    (hslots : ∀ k : Fin 16, k.val < s.sp.val → (s.stack[k]).toNat ≤ 0x1000) :
    ∀ k : Fin 16, k.val < t.sp.val → (t.stack[k]).toNat ≤ 0x1000 := by
  cases i with
  | call nnn =>
    obtain ⟨u, hpush, rfl⟩ := exec_call_next h
    obtain ⟨hsp, hstack, -⟩ := State.push_some hpush
    intro k hk
    rw [State.setPc_sp, hsp] at hk
    rw [State.setPc_stack, hstack]
    split_ifs with htop
    · have hnpc := pc_add_two_toNat hpc
      rw [State.npc_def]
      omega
    · exact hslots k (by omega)
  | ret =>
    obtain ⟨target, u, hpop, rfl⟩ := exec_ret_next h
    obtain ⟨-, hsp, -, hstack, -⟩ := State.pop_some hpop
    intro k hk
    rw [State.setPc_sp, hsp] at hk
    rw [State.setPc_stack, hstack]
    exact hslots k (by omega)
  | _ =>
    obtain ⟨hstack, hsp⟩ := (exec_next_keeps h).stack nofun nofun
    rw [hstack, hsp]
    exact hslots

theorem step_next_inv {s t : State} (hinv : s.Inv) (h : step s = .next t) : t.Inv := by
  obtain ⟨hwf, -, hslots⟩ := hinv
  obtain ⟨i, hfetch, hexec⟩ := (step_next_iff s t).mp h
  obtain ⟨hpc, -⟩ := (fetchInstr_ok_iff s i).mp hfetch
  exact ⟨exec_next_mem_wf hexec hwf, exec_next_pc_le hexec hpc hslots, exec_next_slots_le hexec hpc hslots⟩

theorem State.inv_resetWith (font : Font) : (State.resetWith font).Inv :=
  ⟨State.wf_resetWith font, show 0x0200 ≤ 0x10FE by decide, fun k hk => absurd hk (Nat.not_lt_zero k.val)⟩

/-! ## Along the events of a host -/

/-- What every event of a list keeps, the list keeps. -/
theorem Session.run_keeps {P : Session → Prop} {es : List Event}
    (hkeeps : ∀ c, ∀ e ∈ es, P c → P (c.apply e).2) (c : Session) (h : P c) : P (c.run es).2 := by
  induction es generalizing c with
  | nil => exact h
  | cons e es ih =>
    have htail : ∀ c, ∀ e' ∈ es, P c → P (c.apply e').2 := fun c e' he' =>
      hkeeps c e' (List.mem_cons_of_mem e he')
    exact ih htail (c.apply e).2 (hkeeps c e List.mem_cons_self h)

theorem Session.apply_inv (c : Session) (e : Event) (hinv : c.machine.Inv) : (c.apply e).2.machine.Inv := by
  cases e with
  | reset => exact State.inv_resetWith c.font
  | tick => exact hinv
  | load rom =>
    rw [Session.apply]
    obtain ⟨-, hload⟩ | ⟨-, -, hload⟩ | ⟨-, -, hload⟩ := c.load_cases rom <;> rw [hload]
    · exact hinv
    · exact hinv
    · obtain ⟨hwf, hpc, hslots⟩ := hinv
      exact ⟨Memory.wf_writeBytes _ _ _ hwf, hpc, hslots⟩
  | step keys rnd =>
    have hpresented : (c.machine.present keys rnd).Inv := hinv
    rw [Session.apply]
    obtain ⟨t, hnext, hstep⟩ | ⟨f, -, hstep⟩ | ⟨r, -, hstep⟩ := c.step_cases keys rnd <;> rw [hstep]
    · exact step_next_inv hpresented hnext
    · exact hpresented
    · exact hpresented

/-! ## The obligations -/

/-- Settles O58: writes keep the canonical form, and at depth 0 no slot is occupied. -/
theorem invariantHoldsAtReset : Obligations.InvariantHoldsAtReset :=
  ⟨State.reset_eq_resetWith_defaultFont ▸ State.inv_resetWith defaultFont, State.inv_resetWith⟩

/-- Settles O59: what a step fetches stands at 0x0FFE or below, and each clause is kept from there. -/
theorem stepKeepsTheInvariant : Obligations.StepKeepsTheInvariant := fun _ _ => step_next_inv

/-- Settles O60: by induction on the events, each of which keeps the invariant. -/
theorem eventsKeepTheInvariant : Obligations.EventsKeepTheInvariant := fun c _ hinv =>
  Session.run_keeps (P := fun c => c.machine.Inv) (fun c e _ => c.apply_inv e) c hinv

end Sys2Proof.Machine
end

section
/-! PROOFS. The host's events (spec/70_reset_and_hazards.md, spec/60_exceptions.md): ticks in a row, the wait,
load, reset at any time, and the fault that stays until reset. -/

namespace Sys2Proof.Machine

/-! ## Ticks in a row (R181) -/

theorem Session.run_replicate_tick (c : Session) (k : Nat) :
    (c.run (List.replicate k .tick)).2.machine.dt.toNat = c.machine.dt.toNat - k ∧
    (c.run (List.replicate k .tick)).2.machine.st.toNat = c.machine.st.toNat - k ∧
    (c.run (List.replicate k .tick)).2.machine.pc = c.machine.pc := by
  induction k generalizing c with
  | zero => exact ⟨rfl, rfl, rfl⟩
  | succ k ih =>
    obtain ⟨hdt, hst, hpc⟩ := ih (c.apply .tick).2
    have hdt1 : (c.apply .tick).2.machine.dt.toNat = c.machine.dt.toNat - 1 := countDown_toNat c.machine.dt
    have hst1 : (c.apply .tick).2.machine.st.toNat = c.machine.st.toNat - 1 := countDown_toNat c.machine.st
    refine ⟨hdt.trans ?_, hst.trans ?_, hpc⟩ <;> omega

/-! ## Waiting (R187) -/

theorem State.waits_iff (s : State) :
    s.waits = true ↔ (∃ x, fetchInstr s = .ok (.waitForKey x)) ∧ s.firstKey = none := by
  unfold State.waits
  split
  next x hfetch => simp [hfetch]
  next hother => simpa using fun x hfetch => absurd hfetch (hother x)

/-- A step that waits changes nothing. -/
theorem step_of_waits {s : State} (h : s.waits = true) : step s = .next s := by
  obtain ⟨⟨x, hfetch⟩, hnone⟩ := s.waits_iff.mp h
  rw [step_of_fetch_ok hfetch, exec_waitForKey_of_none x hnone]

/-- A session reports the wait exactly when the state with the inputs presented waits, and keeps it. -/
theorem Session.step_waiting_iff (c : Session) (keys : Vector Bool 16) (rnd : Byte) :
    (c.step keys rnd).1 = .waiting ↔ (c.machine.present keys rnd).waits = true := by
  cases hwaits : (c.machine.present keys rnd).waits with
  | true =>
    rw [Session.step, step_of_waits hwaits]
    simp [hwaits]
  | false =>
    obtain ⟨t, -, hstep⟩ | ⟨f, -, hstep⟩ | ⟨r, -, hstep⟩ := c.step_cases keys rnd <;> simp [hstep, hwaits]

theorem Session.step_of_fault {c : Session} {keys : Vector Bool 16} {rnd : Byte} {f : Fault}
    (h : Sys2Proof.Machine.step (c.machine.present keys rnd) = .fault f) :
    c.step keys rnd = (.fault f, ⟨c.font, c.machine.present keys rnd, false⟩) := by
  simp only [Session.step, h]

/-- A session reports a fault exactly when the step with the inputs presented faults. -/
theorem Session.step_fault_iff (c : Session) (keys : Vector Bool 16) (rnd : Byte) (f : Fault) :
    (c.step keys rnd).1 = .fault f ↔
      Sys2Proof.Machine.step (c.machine.present keys rnd) = .fault f := by
  refine ⟨fun h => ?_, fun h => by rw [Session.step_of_fault h]⟩
  obtain ⟨t, -, hstep⟩ | ⟨g, hfault, hstep⟩ | ⟨r, -, hstep⟩ := c.step_cases keys rnd <;> rw [hstep] at h
  · split_ifs at h
  · cases h
    exact hfault
  · cases h

/-! ## A fault does not depend on the timers and the ports -/

/-- The same in every part that a fault depends on or that an instruction could have written but the timers. -/
structure SameButTimersAndPorts (s t : State) : Prop where
  v : t.v = s.v
  index : t.index = s.index
  pc : t.pc = s.pc
  stack : t.stack = s.stack
  sp : t.sp = s.sp
  mem : t.mem = s.mem
  fb : t.fb = s.fb

theorem fetchInstr_congr {s t : State} (hpc : t.pc = s.pc) (hmem : t.mem = s.mem) :
    fetchInstr t = fetchInstr s := by
  simp only [fetchInstr, State.readByte, hpc, hmem]

/-- A fault of an instruction looks at the depth of the stack and the index register only. -/
theorem exec_fault_congr {i : Instr} {s t : State} (hsp : t.sp = s.sp) (hindex : t.index = s.index)
    (f : Fault) : exec i t = .fault f ↔ exec i s = .fault f := by
  rw [exec_fault_iff, exec_fault_iff, hsp, hindex]

theorem step_fault_of_same {s t : State} {f : Fault} (h : SameButTimersAndPorts s t)
    (hf : step s = .fault f) : step t = .fault f := by
  rw [step_fault_iff] at hf ⊢
  simpa only [fetchInstr_congr h.pc h.mem, exec_fault_congr h.sp h.index] using hf

/-! ## Stuck at a fault until reset (R178) -/

/-- A session that stands where `s` stood but for the timers and the ports, and that no load may change. -/
structure Session.StuckAt (s : State) (c : Session) : Prop where
  closed : c.loadable = false
  same : SameButTimersAndPorts s c.machine

section
variable {s : State} {f : Fault} (hf : Sys2Proof.Machine.step s = .fault f)
include hf

theorem Session.StuckAt.step {c : Session} (h : c.StuckAt s) (keys : Vector Bool 16) (rnd : Byte) :
    c.step keys rnd = (.fault f, ⟨c.font, c.machine.present keys rnd, false⟩) :=
  Session.step_of_fault (step_fault_of_same
    ⟨h.same.v, h.same.index, h.same.pc, h.same.stack, h.same.sp, h.same.mem, h.same.fb⟩ hf)

/-- Any event but reset leaves a stuck session stuck, and reports nothing but the fault and a refused load. -/
theorem Session.StuckAt.apply {c : Session} (h : c.StuckAt s) {e : Event} (he : e ≠ .reset) :
    (c.apply e).2.StuckAt s ∧
      ((c.apply e).1 = .ok ∨ (c.apply e).1 = .fault f ∨ (c.apply e).1 = .refused .loadNotAfterReset) := by
  have ⟨hclosed, hv, hindex, hpc, hstack, hsp, hmem, hfb⟩ := h
  cases e with
  | reset => exact absurd rfl he
  | tick => exact ⟨⟨hclosed, hv, hindex, hpc, hstack, hsp, hmem, hfb⟩, .inl rfl⟩
  | load rom =>
    have hload : c.apply (.load rom) = (.refused .loadNotAfterReset, c) := by
      simp only [Session.apply, Session.load, hclosed, Bool.not_false, if_true]
    rw [hload]
    exact ⟨h, .inr (.inr rfl)⟩
  | step keys rnd =>
    rw [Session.apply, h.step hf keys rnd]
    exact ⟨⟨rfl, hv, hindex, hpc, hstack, hsp, hmem, hfb⟩, .inr (.inl rfl)⟩

theorem Session.StuckAt.run {c : Session} (h : c.StuckAt s) {es : List Event} (hes : Event.reset ∉ es) :
    (c.run es).2.StuckAt s :=
  Session.run_keeps (P := Session.StuckAt s)
    (fun _ _ he hc => (hc.apply hf (ne_of_mem_of_not_mem he hes)).1) c h

theorem Session.StuckAt.reports {c : Session} (h : c.StuckAt s) {es : List Event}
    (hes : Event.reset ∉ es) :
    ∀ r ∈ (c.run es).1, r = .ok ∨ r = .fault f ∨ r = .refused .loadNotAfterReset := by
  induction es generalizing c with
  | nil => exact nofun
  | cons e es ih =>
    have he := List.ne_of_not_mem_cons hes
    have htail := List.not_mem_of_not_mem_cons hes
    obtain ⟨hstuck, hreport⟩ := h.apply hf (Ne.symm he)
    intro r hr
    obtain rfl | hr := List.mem_cons.mp hr
    · exact hreport
    · exact ih hstuck htail r hr

/-- A run that meets the fault is faulted, whatever end it was to reach. -/
theorem Session.StuckAt.runUntil {c : Session} (h : c.StuckAt s) (w : EndWhen) (taken : Nat)
    {es : List Event} (hes : Event.reset ∉ es) (keys : Vector Bool 16) (rnd : Byte) :
    (c.runUntil w taken (es ++ [.step keys rnd])).1 = .faulted f := by
  induction es generalizing c taken with
  | nil => rw [List.nil_append, Session.runUntil, h.step hf keys rnd]
  | cons e es ih =>
    have he := List.ne_of_not_mem_cons hes
    have htail := List.not_mem_of_not_mem_cons hes
    obtain ⟨hstuck, -⟩ := h.apply hf (Ne.symm he)
    cases e with
    | reset => exact absurd rfl he
    | tick => exact ih hstuck taken htail
    | load rom => exact ih hstuck taken htail
    | step keys' rnd' => rw [List.cons_append, Session.runUntil, h.step hf keys' rnd']

end

/-! ## The parameter FONT (R26) -/

theorem Session.run_font (c : Session) (es : List Event) : (c.run es).2.font = c.font :=
  Session.run_keeps (P := fun c' => c'.font = c.font) (fun c' e _ hfont => (c'.apply_font e).trans hfont) c rfl

/-! ## The obligations -/

/-- Settles O40: by induction on the number of ticks, each of which counts both timers down. -/
theorem ticksInARow : Obligations.TicksInARow := Session.run_replicate_tick

/-- Settles O53: a session waits exactly when its state does, and such a step answers the state itself. -/
theorem waitingOnlyOnKeys : Obligations.WaitingOnlyOnKeys := by
  intro c keys rnd
  refine ⟨?_, fun hwaiting => ?_, fun f hfault => ?_⟩
  · rw [Session.step_waiting_iff, State.waits_iff, State.firstKey_none]
    rfl
  · rw [Session.step, step_of_waits ((c.step_waiting_iff keys rnd).mp hwaiting)]
  · rw [Session.step_of_fault ((c.step_fault_iff keys rnd f).mp hfault)]

/-- Settles O54: an admitted load is one store from 0x200; the flag of the session says when it is admitted. -/
theorem loadWritesTheRom : Obligations.LoadWritesTheRom := by
  intro c rom
  refine ⟨fun hopen hlen => ?_, fun hclosed => ?_, rfl, rfl, fun keys rnd => ?_⟩
  · obtain ⟨hclosed, -⟩ | ⟨-, hlong, -⟩ | ⟨-, -, hload⟩ := c.load_cases rom
    · cases hopen.symm.trans hclosed
    · omega
    · rw [hload]
      refine ⟨rfl, fun i hi => ?_, fun a ha => ?_, onlyMemAndPc_setMem c.machine c.machine.pc _, rfl, rfl⟩
      · exact Memory.read_writeBytes_inside _ _ i rom hi (show 0x200 + rom.length ≤ 0x1000 by omega)
      · exact Memory.read_writeBytes_outside _ _ a rom ha
  · obtain ⟨-, hload⟩ | ⟨hopen, -⟩ | ⟨hopen, -⟩ := c.load_cases rom
    · exact hload
    · cases hopen.symm.trans hclosed
    · cases hopen.symm.trans hclosed
  · obtain ⟨t, -, hstep⟩ | ⟨f, -, hstep⟩ | ⟨r, -, hstep⟩ := c.step_cases keys rnd <;> rw [hstep]

/-- Settles O55: the rejected load keeps the session, so the next one is admitted as this one was. -/
theorem tooLongRomChangesNothing : Obligations.TooLongRomChangesNothing := by
  intro c rom rom' hopen hlong
  have hload : c.load rom = (.fault (.romTooLarge rom.length), c) := by
    obtain ⟨hclosed, -⟩ | ⟨-, -, hload⟩ | ⟨-, hlen, -⟩ := c.load_cases rom
    · cases hopen.symm.trans hclosed
    · exact hload
    · omega
  rw [hload]
  exact ⟨rfl, rfl, fun hlen => ((loadWritesTheRom c rom').1 hopen hlen).1⟩

/-- Settles O56: reset looks at nothing of the session but FONT, which no event changed, and the ports. -/
theorem resetAtAnyTime : Obligations.ResetAtAnyTime := by
  intro c es
  refine ⟨(c.run es).2.machine.restart c.font, ?_, rfl, rfl, rfl, rfl, rfl, rfl, rfl, rfl, rfl, rfl, rfl⟩
  rw [Session.apply, Session.run_font]

/-- Settles O57: the step that faulted leaves the session stuck at the fault, and every event but reset keeps it
so. -/
theorem faultPersistsUntilReset : Obligations.FaultPersistsUntilReset := by
  intro c keys rnd f es hfault hes
  have hf := (c.step_fault_iff keys rnd f).mp hfault
  have hstep := Session.step_of_fault hf
  rw [hstep]
  have hstuck : Session.StuckAt (c.machine.present keys rnd)
      ⟨c.font, c.machine.present keys rnd, false⟩ := ⟨rfl, rfl, rfl, rfl, rfl, rfl, rfl, rfl⟩
  refine ⟨hstuck.reports hf hes, fun keys' rnd' => ?_, fun w taken keys' rnd' => ⟨?_, ?_⟩, ?_⟩
  · rw [(hstuck.run hf hes).step hf]
  · rw [Session.runUntil, hstep]
  · exact hstuck.runUntil hf w taken hes keys' rnd'
  · obtain ⟨-, hv, hindex, hpc, hstack, hsp, hmem, hfb⟩ := hstuck.run hf hes
    exact ⟨hv, hindex, hpc, hstack, hsp, hmem, hfb⟩

end Sys2Proof.Machine
end

section
/-! PROOFS. The display (spec/43_display.md R141 to R143): draw, pixel by pixel and as its pseudocode. -/

namespace Sys2Proof.Machine

/-! ## The pixels of a sprite -/

theorem getMsbD_eq_getLsbD (b : Byte) {c : Nat} (h : c < 8) : b.getMsbD c = b.getLsbD (7 - c) := by
  rw [BitVec.getMsbD, decide_eq_true h, Bool.true_and]

/-- A sprite covers a pixel when bit `7 - c` of its row `r` is set, for the column and row it lies at. -/
theorem spritePixel_iff (rows : List Byte) (ox oy x y : Nat) :
    spritePixel rows ox oy x y = true ↔ ∃ c r, c < 8 ∧ ∃ hr : r < rows.length,
      x = ox + c ∧ y = oy + r ∧ rows[r].getLsbD (7 - c) = true := by
  simp only [spritePixel, Bool.and_eq_true, decide_eq_true_eq, and_assoc]
  constructor
  · rintro ⟨hx, hy, hbit⟩
    have hc : x - ox < 8 := by
      by_contra hge
      rw [BitVec.getMsbD_of_ge _ _ (by omega)] at hbit
      cases hbit
    have hr : y - oy < rows.length := by
      by_contra hge
      rw [List.getD_eq_default _ _ (by omega)] at hbit
      simp at hbit
    rw [List.getD_eq_getElem _ _ hr, getMsbD_eq_getLsbD _ hc] at hbit
    exact ⟨x - ox, y - oy, hc, hr, by omega, by omega, hbit⟩
  · rintro ⟨c, r, hc, hr, rfl, rfl, hbit⟩
    rw [Nat.add_sub_cancel_left, Nat.add_sub_cancel_left, List.getD_eq_getElem _ _ hr,
      getMsbD_eq_getLsbD _ hc]
    exact ⟨Nat.le_add_right _ _, Nat.le_add_right _ _, hbit⟩

/-- One more row at the bottom of a sprite decides the pixels at its height and no other. -/
theorem spritePixel_append_row (rows : List Byte) (b : Byte) (ox oy x y : Nat) :
    spritePixel (rows ++ [b]) ox oy x y =
      (spritePixel rows ox oy x y ^^ (decide (y = oy + rows.length) && decide (ox ≤ x) && b.getMsbD (x - ox))) := by
  unfold spritePixel
  by_cases hy : y = oy + rows.length
  · have hlast : y - oy = rows.length := by omega
    have hbelow : rows.getD rows.length 0 = 0 := List.getD_eq_default _ _ (Nat.le_refl _)
    have hrow : (rows ++ [b]).getD rows.length 0 = b := by simp
    rw [hlast, hrow, hbelow]
    simp [hy]
  · have hrow (hoy : oy ≤ y) : (rows ++ [b]).getD (y - oy) 0 = rows.getD (y - oy) 0 := by
      rcases Nat.lt_or_gt_of_ne (show y - oy ≠ rows.length by omega) with hlt | hgt
      · rw [List.getD_append _ _ _ _ hlt]
      · have hend : (rows ++ [b]).length ≤ y - oy := by
          rw [List.length_append]
          exact hgt
        rw [List.getD_eq_default _ _ hend, List.getD_eq_default _ _ (Nat.le_of_lt hgt)]
    by_cases hoy : oy ≤ y
    · simp only [hrow hoy, hy, decide_false, Bool.false_and, Bool.xor_false]
    · simp [hoy, hy]

theorem State.spriteRows_length (s : State) (n : Nat) : (s.spriteRows n).length = n :=
  Memory.readBytes_length _ _ _

theorem State.spriteRows_succ (s : State) (n : Nat) :
    s.spriteRows (n + 1) = s.spriteRows n ++ [s.readByte (s.index.toNat + n)] := by
  simp only [State.spriteRows, Memory.readBytes, List.range_succ, List.map_append, List.map_singleton,
    State.readByte]

/-! ## The state after a draw -/

/-- Where a draw of `n` rows in range ends (R141). -/
def State.drawn (s : State) (x y : Reg) (n : Nat) : State :=
  ((s.setFb (s.fb.blit (s.originX x) (s.originY y) (s.spriteRows n))).setV flagReg
    (flagByte (s.fb.collides (s.originX x) (s.originY y) (s.spriteRows n)))).setPc (s.pc + 2)

theorem exec_draw (x y : Reg) (n : Nat) (s : State) :
    exec (.draw x y n) s = withRange s.index n (.next (s.drawn x y n)) := rfl

theorem exec_draw_of_inRange {s : State} (x y : Reg) {n : Nat} (h : n = 0 ∨ s.index.toNat + n ≤ 0x1000) :
    exec (.draw x y n) s = .next (s.drawn x y n) := by
  rw [exec_draw, withRange_in _ ((inRange_iff _ _).mpr h)]

section
variable (s : State) (x y : Reg) (n : Nat)

theorem State.drawn_pixel {px py : Nat} (hx : px < 64) (hy : py < 32) :
    (s.drawn x y n).pixel px py =
      (s.pixel px py ^^ spritePixel (s.spriteRows n) (s.originX x) (s.originY y) px py) :=
  Frame.pixel_blit s.fb _ _ px py _ hx hy

theorem State.drawn_flag : (s.drawn x y n).getV 15 =
    flagByte (s.fb.collides (s.originX x) (s.originY y) (s.spriteRows n)) := State.getV_setV_same _ _ _

theorem State.drawn_regs : SameRegsBut 15 s (s.drawn x y n) := fun r hr => State.getV_setV_other _ _ r _ hr

theorem State.drawn_frame : OnlyScreenRegsAndPc s (s.drawn x y n) := onlyScreenRegsAndPc_setFb_setV s _ _ _ _

/-- A draw flips the pixels its sprite covers inside the bounds, bit by bit (R142). -/
theorem State.drawn_pixel_ne_iff {px py : Nat} (hx : px < 64) (hy : py < 32) :
    (s.drawn x y n).pixel px py ≠ s.pixel px py ↔
      ∃ c r, c < 8 ∧ r < n ∧ px = (s.getV x).toNat % 64 + c ∧ py = (s.getV y).toNat % 32 + r ∧
        (s.readByte (s.index.toNat + r)).getLsbD (7 - c) = true := by
  have hflips : (s.drawn x y n).pixel px py ≠ s.pixel px py ↔
      spritePixel (s.spriteRows n) (s.originX x) (s.originY y) px py = true := by
    rw [s.drawn_pixel x y n hx hy]
    cases s.pixel px py <;> simp
  rw [hflips, spritePixel_iff]
  simp only [State.spriteRows, Memory.readBytes_getElem, Memory.readBytes_length, exists_prop,
    State.originX, State.originY, State.readByte]

/-- The flag says that some pixel went off (R143). -/
theorem State.drawn_collides_iff :
    s.fb.collides (s.originX x) (s.originY y) (s.spriteRows n) = true ↔
      ∃ px py, px < 64 ∧ py < 32 ∧ s.pixel px py = true ∧ (s.drawn x y n).pixel px py = false := by
  rw [Frame.collides_iff]
  refine exists_congr fun px => exists_congr fun py => and_congr_right fun hx => and_congr_right fun hy => ?_
  rw [s.drawn_pixel x y n hx hy]
  exact and_congr_right fun hon => by simp [show s.fb.pixel px py = true from hon, State.pixel]

theorem flagByte_toNat_eq_one_iff (c : Bool) : (flagByte c).toNat = 1 ↔ c = true := by
  cases c <;> decide

theorem State.drawn_flag_iff : ((s.drawn x y n).getV 15).toNat = 1 ↔
    ∃ px py, px < 64 ∧ py < 32 ∧ s.pixel px py = true ∧ (s.drawn x y n).pixel px py = false := by
  rw [State.drawn_flag, flagByte_toNat_eq_one_iff, State.drawn_collides_iff]

end

/-! ## The two loops of the pseudocode -/

/-- One column flips its pixel when it lies inside the right edge and its bit is set. -/
theorem blitColumn_pixel (b : Byte) (ox py : Nat) (st : BlitState) {c : Nat} (hc : c < 8) {x : Nat}
    (hx : x < 64) (y : Nat) : (blitColumn b ox py st c).1 x y =
      (st.1 x y ^^ (decide (y = py) && decide (x = ox + c) && b.getMsbD c)) := by
  rw [getMsbD_eq_getLsbD b hc]
  unfold blitColumn
  by_cases hedge : ox + c > 63
  · have hne : x ≠ ox + c := by omega
    simp [hedge, hne]
  · by_cases hbit : b.getLsbD (7 - c) = true
    · by_cases hat : x = ox + c ∧ y = py
      · simp [hedge, hbit, hat]
      · simp only [hedge, hbit, hat, if_false, if_true, Bool.and_true]
        rw [← Bool.decide_and, decide_eq_false (fun h => hat h.symm), Bool.xor_false]
    · simp [hedge, hbit]

/-- One column adds a collision when its pixel lies inside the right edge, its bit is set and the pixel was on. -/
theorem blitColumn_collision (b : Byte) (ox py : Nat) (st : BlitState) {c : Nat} (hc : c < 8) :
    (blitColumn b ox py st c).2 = true ↔
      st.2 = true ∨ (ox + c < 64 ∧ b.getMsbD c = true ∧ st.1 (ox + c) py = true) := by
  rw [getMsbD_eq_getLsbD b hc]
  unfold blitColumn
  by_cases hedge : ox + c > 63
  · have hout : ¬ ox + c < 64 := by omega
    simp [hedge, hout]
  · have hin : ox + c < 64 := by omega
    by_cases hbit : b.getLsbD (7 - c) = true
    · cases hpixel : st.1 (ox + c) py <;> simp [hedge, hbit, hin, hpixel]
    · simp [hedge, hbit]

/-- The inner loop after `k` columns: the pixels of one row that the first `k` bits cover are flipped, and a
collision is one of these that was on. -/
theorem blitColumns_eq (b : Byte) (ox py : Nat) (st : BlitState) {k : Nat} (hk : k ≤ 8) :
    (∀ x y, x < 64 → ((List.range k).foldl (blitColumn b ox py) st).1 x y =
      (st.1 x y ^^ (decide (y = py) && decide (ox ≤ x ∧ x < ox + k) && b.getMsbD (x - ox)))) ∧
    (((List.range k).foldl (blitColumn b ox py) st).2 = true ↔
      st.2 = true ∨ ∃ x < 64, (ox ≤ x ∧ x < ox + k) ∧ b.getMsbD (x - ox) = true ∧ st.1 x py = true) := by
  induction k with
  | zero =>
    refine ⟨fun x y _ => ?_, ?_⟩
    · rw [decide_eq_false (show ¬ (ox ≤ x ∧ x < ox + 0) by omega)]
      simp
    · have hempty (x : Nat) : ¬ (ox ≤ x ∧ x < ox + 0) := by omega
      simp only [hempty, false_and, and_false, exists_false, or_false, List.range_zero, List.foldl_nil]
  | succ k ih =>
    obtain ⟨hpixels, hcollision⟩ := ih (by omega)
    rw [List.range_succ, List.foldl_append, List.foldl_cons, List.foldl_nil]
    constructor
    · intro x y hx
      rw [blitColumn_pixel b ox py _ (by omega) hx, hpixels x y hx]
      by_cases hlast : x = ox + k
      · subst hlast
        simp
      · have hsame : (ox ≤ x ∧ x < ox + (k + 1)) ↔ (ox ≤ x ∧ x < ox + k) := by omega
        simp [hlast, hsame]
    · rw [blitColumn_collision b ox py _ (by omega), hcollision, or_assoc]
      refine or_congr_right ⟨?_, ?_⟩
      · rintro (⟨x, hx, ⟨hlo, hhi⟩, hbit, hon⟩ | ⟨hin, hbit, hon⟩)
        · exact ⟨x, hx, ⟨hlo, by omega⟩, hbit, hon⟩
        · rw [hpixels _ _ hin] at hon
          refine ⟨ox + k, hin, ⟨by omega, by omega⟩, by rwa [Nat.add_sub_cancel_left], ?_⟩
          simpa using hon
      · rintro ⟨x, hx, ⟨hlo, hhi⟩, hbit, hon⟩
        by_cases hlast : x = ox + k
        · subst hlast
          rw [Nat.add_sub_cancel_left] at hbit
          refine .inr ⟨hx, hbit, ?_⟩
          rw [hpixels _ _ hx]
          simpa using hon
        · exact .inl ⟨x, hx, ⟨hlo, by omega⟩, hbit, hon⟩

/-- All eight columns of a sprite byte. -/
theorem blitByte_eq (b : Byte) (ox py : Nat) (st : BlitState) :
    (∀ x y, x < 64 → ((List.range 8).foldl (blitColumn b ox py) st).1 x y =
      (st.1 x y ^^ (decide (y = py) && decide (ox ≤ x) && b.getMsbD (x - ox)))) ∧
    (((List.range 8).foldl (blitColumn b ox py) st).2 = true ↔
      st.2 = true ∨ ∃ x < 64, ox ≤ x ∧ b.getMsbD (x - ox) = true ∧ st.1 x py = true) := by
  obtain ⟨hpixels, hcollision⟩ := blitColumns_eq b ox py st (Nat.le_refl 8)
  have hwidth {x : Nat} (hbit : b.getMsbD (x - ox) = true) : x < ox + 8 := by
    by_contra hge
    rw [BitVec.getMsbD_of_ge _ _ (by omega)] at hbit
    cases hbit
  constructor
  · intro x y hx
    rw [hpixels x y hx]
    cases hbit : b.getMsbD (x - ox) with
    | false => simp
    | true => simp [hwidth hbit]
  · rw [hcollision]
    refine or_congr_right (exists_congr fun x => and_congr_right fun _ => ?_)
    exact ⟨fun ⟨⟨hlo, _⟩, hbit, hon⟩ => ⟨hlo, hbit, hon⟩,
      fun ⟨hlo, hbit, hon⟩ => ⟨⟨hlo, hwidth hbit⟩, hbit, hon⟩⟩

/-- No row of a sprite lies at the height below its last one. -/
theorem spritePixel_below (rows : List Byte) (ox oy x : Nat) :
    spritePixel rows ox oy x (oy + rows.length) = false := by
  rw [spritePixel, Nat.add_sub_cancel_left, List.getD_eq_default _ _ (Nat.le_refl _)]
  simp

/-- Both loops after `n` rows: the sprite's pixels inside the bounds are flipped, and the collision is that of
the blit. -/
theorem blitLoops_eq (s : State) (ox oy n : Nat) :
    (∀ x y, x < 64 → y < 32 → (blitLoops s ox oy n).1 x y =
      (s.pixel x y ^^ spritePixel (s.spriteRows n) ox oy x y)) ∧
    ((blitLoops s ox oy n).2 = true ↔
      ∃ x y, x < 64 ∧ y < 32 ∧ s.pixel x y = true ∧ spritePixel (s.spriteRows n) ox oy x y = true) := by
  induction n with
  | zero => simp [blitLoops, spritePixel, State.spriteRows, Memory.readBytes]
  | succ n ih =>
    obtain ⟨hpixels, hcollision⟩ := ih
    have hloop : blitLoops s ox oy (n + 1) = blitRow s ox oy (blitLoops s ox oy n) n := by
      rw [blitLoops, blitLoops, List.range_succ, List.foldl_append, List.foldl_cons, List.foldl_nil]
    have hsprite (x y : Nat) : spritePixel (s.spriteRows (n + 1)) ox oy x y =
        (spritePixel (s.spriteRows n) ox oy x y ^^
          (decide (y = oy + n) && decide (ox ≤ x) && (s.readByte (s.index.toNat + n)).getMsbD (x - ox))) := by
      rw [s.spriteRows_succ, spritePixel_append_row, s.spriteRows_length]
    have hbelow (x : Nat) : spritePixel (s.spriteRows n) ox oy x (oy + n) = false := by
      have h := spritePixel_below (s.spriteRows n) ox oy x
      rwa [s.spriteRows_length] at h
    rw [hloop, blitRow]
    by_cases hedge : oy + n > 31
    · have hsame {x y : Nat} (hy : y < 32) : spritePixel (s.spriteRows (n + 1)) ox oy x y =
          spritePixel (s.spriteRows n) ox oy x y := by
        rw [hsprite, decide_eq_false (by omega)]
        simp
      simp only [hedge, if_true]
      refine ⟨fun x y hx hy => by rw [hpixels x y hx hy, hsame hy], hcollision.trans ?_⟩
      refine exists_congr fun x => exists_congr fun y => and_congr_right fun _ => and_congr_right fun hy => ?_
      rw [hsame hy]
    · obtain ⟨hrow, hrowCollision⟩ := blitByte_eq (s.readByte (s.index.toNat + n)) ox (oy + n)
        (blitLoops s ox oy n)
      simp only [hedge, if_false]
      refine ⟨fun x y hx hy => by rw [hrow x y hx, hpixels x y hx hy, hsprite, Bool.xor_assoc], ?_⟩
      rw [hrowCollision, hcollision]
      constructor
      · rintro (⟨x, y, hx, hy, hon, hcover⟩ | ⟨x, hx, hlo, hbit, hon⟩)
        · have hne : y ≠ oy + n := by
            rintro rfl
            rw [hbelow] at hcover
            cases hcover
          exact ⟨x, y, hx, hy, hon, by simp [hsprite, hcover, hne]⟩
        · have hy : oy + n < 32 := by omega
          rw [hpixels x _ hx hy, hbelow, Bool.xor_false] at hon
          exact ⟨x, oy + n, hx, hy, hon, by simp [hsprite, hbelow, hlo, hbit]⟩
      · rintro ⟨x, y, hx, hy, hon, hcover⟩
        by_cases hlast : y = oy + n
        · subst hlast
          rw [hsprite, hbelow] at hcover
          obtain ⟨hlo, hbit⟩ : ox ≤ x ∧ (s.readByte (s.index.toNat + n)).getMsbD (x - ox) = true := by
            simpa using hcover
          refine .inr ⟨x, hx, hlo, hbit, ?_⟩
          rw [hpixels x _ hx hy, hbelow, Bool.xor_false, hon]
        · exact .inl ⟨x, y, hx, hy, hon, by simpa [hsprite, hlast] using hcover⟩

/-! ## The same draw twice (vector S6 of spec/95_test_vectors.md) -/

theorem State.setV_getV_self {s : State} {x : Reg} {b : Byte} (h : s.getV x = b) : s.setV x b = s := by
  subst h
  have hv : s.v.set x (s.getV x) = s.v := Vector.set_getElem_self _
  simp only [State.setV, hv]

/-- Two states with the same operands and the same bytes have the same sprite to draw. -/
theorem State.spriteRows_congr {s t : State} (hindex : t.index = s.index) (hmem : SameMem s t) (n : Nat) :
    t.spriteRows n = s.spriteRows n := by
  simp only [State.spriteRows, Memory.readBytes, hindex]
  exact List.map_congr_left fun k _ => hmem _

/-- A draw of the same sprite at the same place onto the drawn screen flips every flipped pixel back. -/
theorem State.drawn_drawn_sameScreen {s u : State} {x y : Reg} {n : Nat} (hx : u.originX x = s.originX x)
    (hy : u.originY y = s.originY y) (hsprite : u.spriteRows n = s.spriteRows n)
    (hscreen : ∀ px py, u.pixel px py = (s.drawn x y n).pixel px py) : SameScreen s (u.drawn x y n) := by
  intro px py hpx hpy
  rw [u.drawn_pixel x y n hpx hpy, hx, hy, hsprite, hscreen, s.drawn_pixel x y n hpx hpy, Bool.xor_assoc,
    Bool.xor_self, Bool.xor_false]

/-! ## The obligations -/

/-- Settles O30: in range a draw ends in the blit of its sprite, whose pixels are the sprite's bits. -/
theorem drawXorsTheSprite : Obligations.DrawXorsTheSprite := by
  intro s x y n hrange
  refine ⟨s.drawn x y n, exec_draw_of_inRange x y hrange, fun px py => s.drawn_pixel_ne_iff x y n, ?_,
    s.drawn_flag_iff x y n, s.drawn_regs x y n, rfl, s.drawn_frame x y n⟩
  rw [s.drawn_flag]
  obtain h | h := flagByte_eq_zero_or_one (s.fb.collides (s.originX x) (s.originY y) (s.spriteRows n)) <;>
    rw [h]
  · exact .inr rfl
  · exact .inl rfl

/-- Settles O31: the range of a draw is that of its sprite, and no row is no sprite. -/
theorem drawChecksEverySpriteAddress : Obligations.DrawChecksEverySpriteAddress := by
  intro s x y n
  refine ⟨fun hlen hover => ?_, s.drawn x y 0, exec_draw_of_inRange x y (.inl rfl), fun px py _ _ => rfl,
    s.drawn_flag x y 0⟩
  rw [exec_draw]
  exact withRange_fault _ hlen (by omega)

/-- Settles O32: the blit and the loops flip the same pixels, and collide at the same ones. -/
theorem drawMatchesThePseudocode : Obligations.DrawMatchesThePseudocode := by
  intro s t x y n h
  obtain ⟨-, hnext⟩ := withRange_next ((exec_draw x y n s).symm.trans h)
  cases hnext
  obtain ⟨hpixels, hcollision⟩ := blitLoops_eq s (s.originX x) (s.originY y) n
  refine ⟨fun px py hx hy => (s.drawn_pixel x y n hx hy).trans (hpixels px py hx hy).symm, ?_⟩
  have hflag : s.fb.collides (s.originX x) (s.originY y) (s.spriteRows n) =
      (blitLoops s (s.originX x) (s.originY y) n).2 :=
    Bool.eq_iff_iff.mpr ((Frame.collides_iff _ _ _ _).trans hcollision.symm)
  exact (s.drawn_flag x y n).trans (congrArg flagByte hflag)

/-- Settles O33: the second draw has the operands and the sprite of the first, so it flips the same pixels. -/
theorem drawTwiceRestores : Obligations.DrawTwiceRestores := by
  intro s x y n hrange
  obtain ⟨hindex, -, -, hmem, -⟩ := s.drawn_frame x y n
  have hregs := s.drawn_regs x y n
  generalize hput : ((s.drawn x y n).setV x (s.getV x)).setV y (s.getV y) = u
  have hx : u.originX x = s.originX x := by
    rw [← hput, State.originX, State.originX, State.getV_setV]
    split_ifs with hxy
    · rw [hxy]
    · rw [State.getV_setV_same]
  have hy : u.originY y = s.originY y := by rw [← hput, State.originY, State.originY, State.getV_setV_same]
  have hsprite : u.spriteRows n = s.spriteRows n := by
    rw [← hput]
    exact State.spriteRows_congr hindex hmem n
  have hscreen (px py : Nat) : u.pixel px py = (s.drawn x y n).pixel px py := by rw [← hput]; rfl
  have hagain : n = 0 ∨ u.index.toNat + n ≤ 0x1000 := by
    rw [← hput]
    exact hrange
  have hsame := State.drawn_drawn_sameScreen hx hy hsprite hscreen
  refine ⟨s.drawn x y n, u.drawn x y n, exec_draw_of_inRange x y hrange,
    by rw [hput]; exact exec_draw_of_inRange x y hagain, fun hx15 hy15 => ?_, hsame, ?_⟩
  · have hu : u = s.drawn x y n := by
      rw [← hput, State.setV_getV_self (hregs x hx15), State.setV_getV_self (hregs y hy15)]
    rw [← hu]
    exact exec_draw_of_inRange x y hagain
  · rw [u.drawn_flag_iff x y n]
    refine exists_congr fun px => exists_congr fun py => and_congr_right fun hpx => and_congr_right fun hpy => ?_
    rw [hscreen, hsame px py hpx hpy]

end Sys2Proof.Machine
end
